-- ==== Sys2Proof/Word.lean ====
section
/-! DEFINITION. The word types of the block (00_scope.md R3, R8, R9; 30_encoding.md R62). -/

namespace Sys2Proof

/-- A memory byte or a general register: 8 bits (10_state.md R20, R34). -/
abbrev Byte := BitVec 8

/-- An instruction word, and the value of a 16-bit status output (10_state.md R32, 30_encoding.md R60). -/
abbrev Word := BitVec 16

/-- An address operand NNN or the index register: 12 bits (10_state.md R29, 30_encoding.md R62). -/
abbrev Addr := BitVec 12

/-- A register index X or Y, or a row count N: 4 bits (30_encoding.md R62). -/
abbrev Nibble := BitVec 4

end Sys2Proof
end

