-- ==== Sys2Proof/Config.lean ====
section
/-! DEFINITION. The implementation parameters of 00_scope.md R7, and the free reset values. -/

namespace Sys2Proof

/-- `MEM_SIZE` (R7): addresses 0x000 to 0xFFF. -/
abbrev memSize : Nat := 4096

/-- `LOAD_ADDR` (R7): where the image is loaded and where the PC starts. -/
abbrev loadAddr : Nat := 0x200

/-- `GRID_W` (R7). -/
abbrev gridW : Nat := 64

/-- `GRID_H` (R7). -/
abbrev gridH : Nat := 32

/-- `SPRITE_W` (R7): one byte a row. -/
abbrev spriteW : Nat := 8

/-- The largest image the load port takes (70_reset_and_hazards.md R193). -/
abbrev maxImage : Nat := 3584

/-- `MISALIGNED_PC_POLICY` (R7, 20_memory.md R43). -/
inductive MisalignedPolicy where
  /-- A fetch at an odd PC raises `Abort(MisalignedPC)`. -/
  | abort
  /-- A fetch at an odd PC reads the word there like any other. -/
  | fetch
deriving DecidableEq, Repr

/-- `RESET_REGS` and `RESET_MEM_FILL` (R7). -/
inductive ResetPolicy where
  /-- Zero-filled. -/
  | zero
  /-- Unconstrained: an opaque value. -/
  | draw
deriving DecidableEq, Repr

/-- The decision-backed parameters of R7. They are configuration, not state (10_state.md R39). -/
structure Config where
  /-- `PC_WIDTH` (D2): the width of the PC and of a return address. Addresses are 12 bits and the largest PC is 0x1002
  (10_state.md R27), so the spec takes 13 or more (log 9). -/
  pcWidth : Nat
  /-- `STACK_DEPTH`: `none` is `unbounded` (D3). -/
  stackDepth : Option Nat
  /-- `MISALIGNED_PC_POLICY` (D5). -/
  misalignedPc : MisalignedPolicy
  /-- `STRICT_LOW_NIBBLE_5_9` (D6). -/
  strictLowNibble59 : Bool
  /-- `FAMILY0_STRICT` (D7). -/
  family0Strict : Bool
  /-- `RESET_REGS` (D8, D9). -/
  resetRegs : ResetPolicy
  /-- `RESET_MEM_FILL` (D10). -/
  resetMemFill : ResetPolicy
deriving DecidableEq, Repr

/-- The values this hardware takes (R7). DESIGN CHOICE of the spec: D2, D3, D5 to D10 (log 2 to 9). -/
def hardwareBuild : Config where
  pcWidth := 16
  stackDepth := some 16
  misalignedPc := .abort
  strictLowNibble59 := true
  family0Strict := false
  resetRegs := .zero
  resetMemFill := .zero

/-- The free value register `i` holds after reset under `RESET_REGS = draw` (10_state.md R23; log 12). -/
opaque drawnReg : Nat → Byte

/-- The free value I holds after reset under `RESET_REGS = draw` (10_state.md R29; log 12). -/
opaque drawnIndex : Addr

/-- The free value byte `a` of memory holds after reset under `RESET_MEM_FILL = draw` (10_state.md R34; log 12). -/
opaque drawnByte : Nat → Byte

end Sys2Proof
end

