-- ==== Sys2Proof/Syntax.lean ====
section
/-! DEFINITION. The instructions: one constructor per row of spec/opcode_table.json (30_encoding.md R64). -/

namespace Sys2Proof

/-- The closed sum type the decoder answers (30_encoding.md R64, R75). Operand widths are those of R62. -/
inductive Instr where
  /-- 0x0?E0 (43_display.md R140). -/
  | clearScreen
  /-- 0x0?EE (41_control_flow.md R110). -/
  | leaveSubr
  /-- 0x1NNN (41_control_flow.md R111). -/
  | jump (nnn : Addr)
  /-- 0x2NNN (41_control_flow.md R113). -/
  | enterSubr (nnn : Addr)
  /-- 0x3XNN (41_control_flow.md R115). -/
  | skipIfEq (x : Nibble) (nn : Byte)
  /-- 0x4XNN (41_control_flow.md R116). -/
  | skipIfNEq (x : Nibble) (nn : Byte)
  /-- 0x5XY0 (41_control_flow.md R117). -/
  | skipIfEqXY (x y : Nibble)
  /-- 0x6XNN (42_registers.md R130). -/
  | setReg (x : Nibble) (nn : Byte)
  /-- 0x7XNN (42_registers.md R131). -/
  | addToReg (x : Nibble) (nn : Byte)
  /-- 0x9XY0 (41_control_flow.md R118). -/
  | skipIfNEqXY (x y : Nibble)
  /-- 0xANNN (42_registers.md R132). -/
  | setIndex (nnn : Addr)
  /-- 0xDXYN (43_display.md R150). -/
  | display (x y n : Nibble)
  /-- Every other word (40_execution_engine.md R99). -/
  | unsupported (w : Word)
deriving DecidableEq, Repr

/-- The spec's name of an instruction (00_scope.md R13). -/
def Instr.mnemonic : Instr → String
  | .clearScreen => "ClearScreen"
  | .leaveSubr => "LeaveSubr"
  | .jump _ => "Jump"
  | .enterSubr _ => "EnterSubr"
  | .skipIfEq _ _ => "SkipIfEq"
  | .skipIfNEq _ _ => "SkipIfNEq"
  | .skipIfEqXY _ _ => "SkipIfEqXY"
  | .setReg _ _ => "SetReg"
  | .addToReg _ _ => "AddToReg"
  | .skipIfNEqXY _ _ => "SkipIfNEqXY"
  | .setIndex _ => "SetIndex"
  | .display _ _ _ => "Display"
  | .unsupported _ => "Unsupported"

end Sys2Proof
end

