-- ==== Sys2Proof/WellFormed.lean ====
section
/-! DEFINITION. The opcode table as rows of mask and pattern (30_encoding.md R61, R64), and which instructions are
well-formed. Operand ranges are carried by the operand types, so the one check left is that `Unsupported` carries a
word that no row matches (R74, R76). -/

namespace Sys2Proof

/-- A row of the opcode table: a word matches it when its bits under `mask` are `pattern`. -/
structure OpcodeRow where
  mnemonic : String
  pattern : Word
  mask : Word
deriving DecidableEq, Repr

/-- Does the word match the row? -/
def OpcodeRow.hits (r : OpcodeRow) (w : Word) : Bool := w &&& r.mask == r.pattern

/-- The mask of the two family 0x0 rows: bits 11:8 count only under `FAMILY0_STRICT` (R61, R66). -/
def family0Mask (c : Config) : Word := if c.family0Strict then 0xFFFF#16 else 0xF0FF#16

/-- The mask of the two `RR` rows: bits 3:0 count only under `STRICT_LOW_NIBBLE_5_9` (R61, R71). -/
def rrMask (c : Config) : Word := if c.strictLowNibble59 then 0xF00F#16 else 0xF000#16

/-- Rows 1 to 12 of R64, with the masks of spec/opcode_table.json. -/
def opcodeTable (c : Config) : List OpcodeRow :=
  [⟨"ClearScreen", 0x00E0#16, family0Mask c⟩, ⟨"LeaveSubr", 0x00EE#16, family0Mask c⟩,
   ⟨"Jump", 0x1000#16, 0xF000#16⟩, ⟨"EnterSubr", 0x2000#16, 0xF000#16⟩,
   ⟨"SkipIfEq", 0x3000#16, 0xF000#16⟩, ⟨"SkipIfNEq", 0x4000#16, 0xF000#16⟩,
   ⟨"SkipIfEqXY", 0x5000#16, rrMask c⟩, ⟨"SetReg", 0x6000#16, 0xF000#16⟩,
   ⟨"AddToReg", 0x7000#16, 0xF000#16⟩, ⟨"SkipIfNEqXY", 0x9000#16, rrMask c⟩,
   ⟨"SetIndex", 0xA000#16, 0xF000#16⟩, ⟨"Display", 0xD000#16, 0xF000#16⟩]

/-- The name of the first row of `rows` that the word matches, `Unsupported` when none does (R64's catch-all). -/
def lookupRow (rows : List OpcodeRow) (w : Word) : String :=
  match rows with
  | [] => "Unsupported"
  | r :: rest => if r.hits w then r.mnemonic else lookupRow rest w

/-- Well-formed under the parameters `c`: `Unsupported` carries an unsupported word. -/
def Instr.wfWith (c : Config) : Instr → Bool
  | .unsupported w => !(opcodeTable c).any (fun r => r.hits w)
  | .clearScreen | .leaveSubr | .jump _ | .enterSubr _ | .skipIfEq _ _ | .skipIfNEq _ _ | .skipIfEqXY _ _
  | .setReg _ _ | .addToReg _ _ | .skipIfNEqXY _ _ | .setIndex _ | .display _ _ _ => true

/-- Well-formed in the hardware build. -/
def Instr.wf (i : Instr) : Bool := i.wfWith hardwareBuild

end Sys2Proof
end

