-- ==== Sys2Proof/Decode.lean ====
section
/-! DEFINITION. The decoder (30_encoding.md R62, R65 to R75), the encoder, and the byte order of a word (20_memory.md R41). -/

namespace Sys2Proof

/-- `w[hi:lo]` for a field of `width` bits at `lo` (00_scope.md R8). -/
abbrev field (w : Word) (lo width : Nat) : BitVec width := w.extractLsb' lo width

/-- The family nibble `w[15:12]` (R65). -/
def familyOf (w : Word) : Nibble := field w 12 4

/-- `X = w[11:8]` (R62). -/
def fieldX (w : Word) : Nibble := field w 8 4

/-- `Y = w[7:4]` (R62). -/
def fieldY (w : Word) : Nibble := field w 4 4

/-- `N = w[3:0]` (R62). -/
def fieldN (w : Word) : Nibble := field w 0 4

/-- `NN = w[7:0]` (R62). -/
def fieldNN (w : Word) : Byte := field w 0 8

/-- `NNN = w[11:0]` (R62). -/
def fieldNNN (w : Word) : Addr := field w 0 12

/-- Family 0x0 dispatches on the low byte (R66); bits 11:8 count only under `FAMILY0_STRICT`. -/
def decodeFamily0 (c : Config) (w : Word) : Instr :=
  if c.family0Strict = true ∧ fieldX w ≠ 0x0#4 then .unsupported w
  else if fieldNN w = 0xE0#8 then .clearScreen
  else if fieldNN w = 0xEE#8 then .leaveSubr
  else .unsupported w

/-- Families 0x5 and 0x9 require a zero low nibble under `STRICT_LOW_NIBBLE_5_9` (R71). -/
def lowNibbleRefused (c : Config) (w : Word) : Bool := c.strictLowNibble59 && fieldN w != 0x0#4

/-- `decode` of R75: total and pure on every word, `Unsupported` the catch-all. -/
def decodeWith (c : Config) (w : Word) : Instr :=
  if familyOf w = 0x0#4 then decodeFamily0 c w
  else if familyOf w = 0x1#4 then .jump (fieldNNN w)
  else if familyOf w = 0x2#4 then .enterSubr (fieldNNN w)
  else if familyOf w = 0x3#4 then .skipIfEq (fieldX w) (fieldNN w)
  else if familyOf w = 0x4#4 then .skipIfNEq (fieldX w) (fieldNN w)
  else if familyOf w = 0x5#4 then
    if lowNibbleRefused c w then .unsupported w else .skipIfEqXY (fieldX w) (fieldY w)
  else if familyOf w = 0x6#4 then .setReg (fieldX w) (fieldNN w)
  else if familyOf w = 0x7#4 then .addToReg (fieldX w) (fieldNN w)
  else if familyOf w = 0x9#4 then
    if lowNibbleRefused c w then .unsupported w else .skipIfNEqXY (fieldX w) (fieldY w)
  else if familyOf w = 0xA#4 then .setIndex (fieldNNN w)
  else if familyOf w = 0xD#4 then .display (fieldX w) (fieldY w) (fieldN w)
  else .unsupported w  -- families 0x8, 0xB, 0xC, 0xE and 0xF (R74)

/-- The decoder of the hardware build. -/
def decode (w : Word) : Instr := decodeWith hardwareBuild w

/-- The big-endian word of two bytes: the byte at the lower address is bits 15:8 (20_memory.md R41). -/
def bigEndian (hi lo : Byte) : Word := hi ++ lo

/-- The two bytes of a word, lower address first (20_memory.md R41). -/
def wordBytes (w : Word) : List Byte := [field w 8 8, field w 0 8]

/-- Why bytes give no instruction: there are fewer than the two that every instruction takes (R60). -/
inductive DecodeError where
  | truncated (have_ : Nat)
deriving DecidableEq, Repr

/-- The decoder on a byte stream: one instruction and the rest of the bytes, or a refusal by name. -/
def decodeBytesWith (c : Config) : List Byte → Except DecodeError (Instr × List Byte)
  | hi :: lo :: rest => .ok (decodeWith c (bigEndian hi lo), rest)
  | bs => .error (.truncated bs.length)

/-- The byte-stream decoder of the hardware build. -/
def decodeBytes (bs : List Byte) : Except DecodeError (Instr × List Byte) := decodeBytesWith hardwareBuild bs

/-- The word of an instruction, from the patterns of R64 and R84; ignored bits are 0, the canonical word. -/
def encode : Instr → Word
  | .clearScreen => 0x00E0#16
  | .leaveSubr => 0x00EE#16
  | .jump nnn => 0x1#4 ++ nnn
  | .enterSubr nnn => 0x2#4 ++ nnn
  | .skipIfEq x nn => 0x3#4 ++ x ++ nn
  | .skipIfNEq x nn => 0x4#4 ++ x ++ nn
  | .skipIfEqXY x y => 0x5#4 ++ x ++ y ++ 0x0#4
  | .setReg x nn => 0x6#4 ++ x ++ nn
  | .addToReg x nn => 0x7#4 ++ x ++ nn
  | .skipIfNEqXY x y => 0x9#4 ++ x ++ y ++ 0x0#4
  | .setIndex nnn => 0xA#4 ++ nnn
  | .display x y n => 0xD#4 ++ x ++ y ++ n
  | .unsupported w => w

/-- The bytes of an instruction as memory holds them. -/
def encodeBytes (i : Instr) : List Byte := wordBytes (encode i)

/-- The 16-bit word a table row's bits stand for: bit 0 is the word's least significant bit, bits at or above `nbits` are 0. -/
def tableWord (nbits w : Nat) : Word := BitVec.ofNat 16 (w % 2 ^ nbits)

/-- What the decoder reads from an instruction whose bits are `w`, laid out in memory order (log 25). -/
def decodeTableWord (nbits w : Nat) : Option Instr :=
  match decodeBytes (wordBytes (tableWord nbits w)) with
  | .ok (i, _) => some i
  | .error _ => none

end Sys2Proof
end

