-- ==== Sys2Proof/Machine/State.lean ====
section
/-! DEFINITION. The state of the block, whole (10_state.md R20 to R38), and the reasons a step can stop. -/

namespace Sys2Proof.Machine

/-- The reasons of `Aborted(reason)` (60_exceptions.md R170). -/
inductive AbortReason where
  /-- Code 1: `LeaveSubr` with an empty stack. -/
  | emptyStackPop
  /-- Code 2: `EnterSubr` with a full stack. -/
  | stackOverflow
  /-- Code 3: a fetch at an odd PC. -/
  | misalignedPC
  /-- Code 4: reserved, cannot occur (10_state.md R20). -/
  | registerIndexOutOfRange
  /-- Code 5: reserved, cannot occur (43_display.md R147). -/
  | bitPositionOutOfRange
deriving DecidableEq, Repr

/-- The engine's run state (10_state.md R30). -/
inductive RunState where
  | running
  | programEnd
  | haltedUnsupported
  | aborted (reason : AbortReason)
deriving DecidableEq, Repr

/-- What the block sends to the display sink (43_display.md R160). -/
inductive SinkEvent where
  | setCell (row col : Nat) (on : Bool)
  | clearAll
  | flush
deriving DecidableEq, Repr

/-- The 4096-byte address space (10_state.md R34) as the addresses whose byte is not `memFill`, rising. -/
abbrev Memory := List Host.Cell

/-- What an address that the list does not name reads as: 0x00 (10_state.md R34, decision D10; log 4). -/
abbrev memFill : Byte := 0x00#8

/-- The 32 rows of 64 Boolean cells, row-major (10_state.md R33). -/
abbrev Framebuffer := Vector (Vector Bool 64) 32

/-- Where a step stops outside the spec's own outcomes. The spec's aborts are NOT here: they are next states whose
`run` is `aborted` (60_exceptions.md R172; log 1). -/
inductive Fault where
  /-- Raised by a memory read at or above 0x1000, outside the address space (20_memory.md R40). No step makes one
  (20_memory.md R55). Safe. -/
  | addressOutsideSpace (a : Nat)
deriving DecidableEq, Repr

/-- What the machine refuses by name. -/
inductive Refusal where
  /-- Raised by `exec` for an instruction that has no meaning yet; no arm is left that does. Safe. -/
  | notModelled (mnemonic : String)
  /-- Raised by the host load port for an image over 3584 bytes (70_reset_and_hazards.md R193), never by a step. Safe. -/
  | imageTooLarge (len : Nat)
deriving DecidableEq, Repr

/-- Every piece of state of 10_state.md R38. The parameter is `PC_WIDTH` (00_scope.md R7, decision D2; log 9): `State` alone
is the hardware build's state, with 16 bits, and `State c.pcWidth` the state under the parameters `c`. -/
structure State (pcWidth : Nat := 16) where
  /-- V0 to VF (R20). -/
  v : Vector Byte 16
  /-- I (R29). -/
  index : Addr
  /-- PC (R24). -/
  pc : BitVec pcWidth
  /-- S, the call stack: the last element, a PC value, is the top (R31, 00_scope.md R10). -/
  stack : List (BitVec pcWidth)
  /-- `run` (R30). -/
  run : RunState
  /-- `run_state`, the status output (R32). -/
  runState : BitVec 2
  /-- `halt_word` (R32). -/
  haltWord : Word
  /-- `halt_addr` (R32). -/
  haltAddr : Word
  /-- `abort_reason` (R32). -/
  abortReason : BitVec 3
  /-- FB (R33). -/
  fb : Framebuffer
  /-- M (R34). -/
  mem : Memory
  /-- The sink event stream since reset, oldest first (R38, 43_display.md R160; log 11). -/
  events : List SinkEvent
deriving DecidableEq, Repr

/-- The state right after reset (10_state.md R38, 70_reset_and_hazards.md R190) at any `PC_WIDTH`, over the values that
V, I and memory take. -/
def State.resetAt {pcWidth : Nat} (v : Vector Byte 16) (index : Addr) (mem : Memory) : State pcWidth where
  v := v
  index := index
  pc := BitVec.ofNat pcWidth loadAddr
  stack := []
  run := .running
  runState := 0#2
  haltWord := 0x0000#16
  haltAddr := 0x0000#16
  abortReason := 0#3
  fb := Vector.replicate 32 (Vector.replicate 64 false)
  mem := mem
  events := []

/-- The state right after reset in the hardware build. The zeros of V, I and memory are the spec's decisions D8 to D10
(log 2, 3, 4). -/
def State.reset : State := State.resetAt (Vector.replicate 16 0x00#8) 0x000#12 []

end Sys2Proof.Machine
end

