-- ==== Sys2Proof/Machine/Ops.lean ====
section
/-! DEFINITION. The named operations over memory, registers, stack, framebuffer, event stream and run state
(00_scope.md R10, R11). -/

namespace Sys2Proof.Machine

/-! ### Memory (20_memory.md) -/

/-- The byte at address `a`; an address the list does not name reads as `memFill`. -/
def Memory.byte : Memory → Nat → Byte
  | [], _ => memFill
  | (k, b) :: m, a => if k = a then b else Memory.byte m a

/-- `MemRead(a, 1)` (00_scope.md R11): the only access width. An address outside 0x000 to 0xFFF does not exist
(20_memory.md R40; log 13). -/
def Memory.read (m : Memory) (a : Nat) : Except Fault Byte :=
  if a < memSize then .ok (Memory.byte m a) else .error (.addressOutsideSpace a)

/-- Put `b` at `a`, keeping the list rising and free of fill bytes. Only the host load port writes memory
(20_memory.md R47). -/
def Memory.put : Memory → Nat → Byte → Memory
  | [], a, b => if b = memFill then [] else [(a, b)]
  | (k, d) :: m, a, b =>
    if a < k then (if b = memFill then (k, d) :: m else (a, b) :: (k, d) :: m)
    else if a = k then (if b = memFill then m else (a, b) :: m)
    else (k, d) :: Memory.put m a b

/-- Put bytes at consecutive addresses from `a` on. -/
def Memory.putAll : Memory → Nat → List Byte → Memory
  | m, _, [] => m
  | m, a, b :: bs => Memory.putAll (Memory.put m a b) (a + 1) bs

/-- Every listed address is above `lo`, below `memSize`, and rising; no listed byte is the fill. -/
def Memory.wfFrom : Nat → Memory → Bool
  | _, [] => true
  | lo, (k, b) :: m => decide (lo ≤ k) && decide (k < memSize) && (b != memFill) && Memory.wfFrom (k + 1) m

/-- The canonical form: equal memories are equal lists. -/
def Memory.wf (m : Memory) : Bool := Memory.wfFrom 0 m

/-- `Fetch16(a)`: the big-endian word at `a` (20_memory.md R41, 40_execution_engine.md R93). -/
def Memory.fetch16 (m : Memory) (a : Nat) : Except Fault Word :=
  match Memory.read m a, Memory.read m (a + 1) with
  | .ok hi, .ok lo => .ok (bigEndian hi lo)
  | .error f, _ => .error f
  | .ok _, .error f => .error f

/-! ### Registers and PC (10_state.md R20, R24, R29) -/

/-- `V[x]`. A 4-bit index is always in range (R20). -/
def State.readReg {pw : Nat} (s : State pw) (x : Nibble) : Byte := s.v[x.toNat]'x.isLt

/-- `V[x] <- b`. -/
def State.writeReg {pw : Nat} (s : State pw) (x : Nibble) (b : Byte) : State pw := { s with v := s.v.set x.toNat b x.isLt }

/-- `I <- nnn`. -/
def State.setIndex {pw : Nat} (s : State pw) (nnn : Addr) : State pw := { s with index := nnn }

/-- `PC <- target`. -/
def State.setPc {pw : Nat} (s : State pw) (target : BitVec pw) : State pw := { s with pc := target }

/-- `PC <- PC + 2`: the advance (40_execution_engine.md R94) and the skip (41_control_flow.md R114). -/
def State.advance {pw : Nat} (s : State pw) : State pw := State.setPc s (s.pc + 2#pw)

/-! ### Call stack (10_state.md R31): the last element is the top -/

/-- `push(v)`. -/
def State.push {pw : Nat} (s : State pw) (v : BitVec pw) : State pw := { s with stack := s.stack ++ [v] }

/-- The state after `pop()`: the last element is gone. -/
def State.dropTop {pw : Nat} (s : State pw) : State pw := { s with stack := s.stack.dropLast }

/-- `STACK_DEPTH != unbounded and length(S) = STACK_DEPTH` (41_control_flow.md R113). -/
def stackFull (c : Config) {pw : Nat} (s : State pw) : Bool := c.stackDepth == some s.stack.length

/-! ### Framebuffer (10_state.md R33) -/

/-- `FB[r][c]`; outside the grid there is no cell, and the answer is false (log 16). -/
def Framebuffer.cell (fb : Framebuffer) (r c : Nat) : Bool :=
  if h : r < 32 ∧ c < 64 then (fb[r]'h.1)[c]'h.2 else false

/-- `FB[r][c] <- b`; outside the grid there is no cell to write (log 16). -/
def Framebuffer.setCell (fb : Framebuffer) (r c : Nat) (b : Bool) : Framebuffer :=
  if h : r < 32 ∧ c < 64 then fb.set r ((fb[r]'h.1).set c b h.2) h.1 else fb

/-- The grid with every cell false (43_display.md R140). -/
def Framebuffer.blank : Framebuffer := Vector.replicate 32 (Vector.replicate 64 false)

/-- Replace the grid. -/
def State.setFb {pw : Nat} (s : State pw) (fb : Framebuffer) : State pw := { s with fb := fb }

/-! ### Sink event stream (43_display.md R160) -/

/-- `emit` of each event of `es` in order: appended to the stream. -/
def State.emit {pw : Nat} (s : State pw) (es : List SinkEvent) : State pw := { s with events := s.events ++ es }

/-! ### Leaving `Running` (60_exceptions.md R170 to R172). There is no trap entry and no return (R176, R177). -/

/-- The `abort_reason` code of a reason (R170). -/
def AbortReason.code : AbortReason → BitVec 3
  | .emptyStackPop => 1#3
  | .stackOverflow => 2#3
  | .misalignedPC => 3#3
  | .registerIndexOutOfRange => 4#3
  | .bitPositionOutOfRange => 5#3

/-- The `run_state` code of a run state (10_state.md R32). -/
def RunState.code : RunState → BitVec 2
  | .running => 0#2
  | .programEnd => 1#2
  | .haltedUnsupported => 2#2
  | .aborted _ => 3#2

/-- `halt ProgramEnd` (R171): nothing but `run` and `run_state` changes. -/
def State.haltProgramEnd {pw : Nat} (s : State pw) : State pw := { s with run := .programEnd, runState := 1#2 }

/-- `halt Unsupported(w)` (40_execution_engine.md R99): the PC is already past the word, so its address is PC - 2. -/
def State.haltUnsupported {pw : Nat} (s : State pw) (w : Word) : State pw :=
  { s with run := .haltedUnsupported, runState := 2#2, haltWord := w, haltAddr := (s.pc - 2#pw).setWidth 16 }

/-- `raise Abort(r)` (R172): the one shared operation of every contract violation. -/
def State.raiseAbort {pw : Nat} (s : State pw) (r : AbortReason) : State pw :=
  { s with run := .aborted r, runState := 3#2, abortReason := AbortReason.code r }

end Sys2Proof.Machine
end

