-- ==== Sys2Proof/Machine/Operands.lean ====
section
/-! DEFINITION. Operand forms: the address operand (30_encoding.md R63) and what `Display` makes of its operands
(43_display.md R142 to R146). -/

namespace Sys2Proof.Machine

/-- `zext_16(nnn)`, the absolute target of a jump or call, at the width of the PC (30_encoding.md R63, 00_scope.md R7). -/
def target {pw : Nat} (nnn : Addr) : BitVec pw := nnn.setWidth pw

/-- The collision flag's register, VF (10_state.md R21). -/
def regVF : Nibble := 0xF#4

/-- Anchor column `c0 = V[x] mod 64` (43_display.md R142). -/
def anchorCol (vx : Byte) : Nat := vx.toNat % gridW

/-- Anchor row `r0 = V[y] mod 32` (43_display.md R142). -/
def anchorRow (vy : Byte) : Nat := vy.toNat % gridH

/-- Drawable width `w = min(8, 64 - c0)` (43_display.md R143). -/
def drawWidth (c0 : Nat) : Nat := min spriteW (gridW - c0)

/-- Drawable height `h = min(n, 32 - r0)` (43_display.md R144). -/
def drawHeight (n : Nibble) (r0 : Nat) : Nat := min n.toNat (gridH - r0)

/-- The bounded row source (43_display.md R146): up to `h` bytes from `a` on, stopping early at the end of memory. -/
def spriteBytes (m : Memory) (a : Nat) : Nat → Except Fault (List Byte)
  | 0 => .ok []
  | h + 1 =>
    if a > 0xFFF then .ok []
    else
      match Memory.read m a, spriteBytes m (a + 1) h with
      | .ok b, .ok bs => .ok (b :: bs)
      | .error f, _ => .error f
      | .ok _, .error f => .error f

/-- Column offset `c` of a row takes bit `7 - c` of its byte: the leftmost column is the most significant bit
(43_display.md R147). -/
def spriteBit (b : Byte) (c : Nat) : Bool := b.getLsbD (7 - c)

end Sys2Proof.Machine
end

