-- ==== Sys2Proof/Machine/Flags.lean ====
section
/-! DEFINITION. The only flag is VF, the collision flag (10_state.md R35). No other instruction than `Display` computes a
flag: `AddToReg` touches none (42_registers.md R131). -/

namespace Sys2Proof.Machine

/-- One cell's contribution to the collision flag: it was on and its sprite bit is 1 (43_display.md R148). -/
def collides (old bit : Bool) : Bool := old && bit

/-- The value VF takes (43_display.md R148). -/
def flagByte (collided : Bool) : Byte := if collided then 0x01#8 else 0x00#8

/-- `VF <- flag`. -/
def State.writeVF {pw : Nat} (s : State pw) (collided : Bool) : State pw := State.writeReg s regVF (flagByte collided)

end Sys2Proof.Machine
end

