-- ==== Sys2Proof/Machine/Control.lean ====
section
/-! DEFINITION. Control transfer (41_control_flow.md). The PC is already the instruction's address plus 2 (R94), and a
target is checked only by the next fetch (R112). -/

namespace Sys2Proof.Machine

/-- `LeaveSubr` (R110). -/
def execLeaveSubr {pw : Nat} (s : State pw) : Host.Outcome (State pw) Fault Refusal :=
  match s.stack.getLast? with
  | none => .next (State.raiseAbort s .emptyStackPop)
  | some ret => .next (State.setPc (State.dropTop s) ret)

/-- `Jump{nnn}` (R111). -/
def execJump (nnn : Addr) {pw : Nat} (s : State pw) : Host.Outcome (State pw) Fault Refusal :=
  .next (State.setPc s (target nnn))

/-- `EnterSubr{nnn}` (R113) under the parameters `c`. -/
def execEnterSubrWith (c : Config) (nnn : Addr) {pw : Nat} (s : State pw) : Host.Outcome (State pw) Fault Refusal :=
  if stackFull c s then .next (State.raiseAbort s .stackOverflow)
  else .next (State.setPc (State.push s s.pc) (target nnn))

/-- `EnterSubr{nnn}` (R113) in the hardware build: `STACK_DEPTH` = 16 (log 5). -/
def execEnterSubr (nnn : Addr) (s : State) : Host.Outcome State Fault Refusal :=
  execEnterSubrWith hardwareBuild nnn s

/-- A skip (R114): one more instruction width when the condition holds. -/
def skipWhen (cond : Bool) {pw : Nat} (s : State pw) : Host.Outcome (State pw) Fault Refusal :=
  .next (if cond then State.advance s else s)

/-- `SkipIfEq{x,nn}` (R115). -/
def execSkipIfEq (x : Nibble) (nn : Byte) {pw : Nat} (s : State pw) : Host.Outcome (State pw) Fault Refusal :=
  skipWhen (State.readReg s x == nn) s

/-- `SkipIfNEq{x,nn}` (R116). -/
def execSkipIfNEq (x : Nibble) (nn : Byte) {pw : Nat} (s : State pw) : Host.Outcome (State pw) Fault Refusal :=
  skipWhen (State.readReg s x != nn) s

/-- `SkipIfEqXY{x,y}` (R117). -/
def execSkipIfEqXY (x y : Nibble) {pw : Nat} (s : State pw) : Host.Outcome (State pw) Fault Refusal :=
  skipWhen (State.readReg s x == State.readReg s y) s

/-- `SkipIfNEqXY{x,y}` (R118). -/
def execSkipIfNEqXY (x y : Nibble) {pw : Nat} (s : State pw) : Host.Outcome (State pw) Fault Refusal :=
  skipWhen (State.readReg s x != State.readReg s y) s

end Sys2Proof.Machine
end

