-- ==== Sys2Proof/Machine/Blitter.lean ====
section
/-! DEFINITION. The sprite blitter: XOR compositing, collision accumulation, and the events of a drawn rectangle
(43_display.md R147 to R150, R163). -/

namespace Sys2Proof.Machine

/-- The grid while a sprite is drawn, with the collision flag accumulated so far. -/
structure Canvas where
  fb : Framebuffer
  collided : Bool
deriving DecidableEq, Repr

/-- One cell of the inner loop of R150: accumulate the collision (R148), then XOR (R149). -/
def Canvas.drawCell (cv : Canvas) (row col : Nat) (bit : Bool) : Canvas where
  fb := Framebuffer.setCell cv.fb row col (Framebuffer.cell cv.fb row col ^^ bit)
  collided := cv.collided || collides (Framebuffer.cell cv.fb row col) bit

/-- The first `w` columns of a row, left to right (R150's inner loop). -/
def Canvas.drawRow (cv : Canvas) (row c0 : Nat) (b : Byte) : Nat → Canvas
  | 0 => cv
  | c + 1 => Canvas.drawCell (Canvas.drawRow cv row c0 b c) row (c0 + c) (spriteBit b c)

/-- The rows from `row` down, one byte each (R150's outer loop over the bytes the row source gave). -/
def Canvas.drawRows (c0 w : Nat) : List Byte → Nat → Canvas → Canvas
  | [], _, cv => cv
  | b :: bs, row, cv => Canvas.drawRows c0 w bs (row + 1) (Canvas.drawRow cv row c0 b w)

/-- One `SetCell` per cell of the drawn rectangle, row-major, with its new value (R163). -/
def rectEvents (fb : Framebuffer) (r0 c0 hd w : Nat) : List SinkEvent :=
  (List.range hd).flatMap fun r =>
    (List.range w).map fun c => .setCell (r0 + r) (c0 + c) (Framebuffer.cell fb (r0 + r) (c0 + c))

end Sys2Proof.Machine
end

