-- ==== Sys2Proof/Machine/Display.lean ====
section
/-! DEFINITION. The display instructions (43_display.md). The PC is already the instruction's address plus 2. -/

namespace Sys2Proof.Machine

/-- `ClearScreen` (R140, R162). -/
def execClearScreen {pw : Nat} (s : State pw) : Host.Outcome (State pw) Fault Refusal :=
  .next (State.emit (State.setFb s Framebuffer.blank) [.clearAll, .flush])

/-- `Display{x,y,n}` once its operands are sampled and its sprite bytes read: VF <- 0, draw, VF <- collision, events
(R145, R148 to R150, R163). -/
def drawSprite {pw : Nat} (s : State pw) (c0 r0 : Nat) (rows : List Byte) : State pw :=
  let s0 := State.writeVF s false
  let w := drawWidth c0
  let cv := Canvas.drawRows c0 w rows r0 ⟨s0.fb, false⟩
  State.emit (State.writeVF (State.setFb s0 cv.fb) cv.collided) (rectEvents cv.fb r0 c0 rows.length w ++ [.flush])

/-- `Display{x,y,n}` (R150): V[x], V[y] and I are sampled before VF is reset (R145, log 21). -/
def execDisplay (x y n : Nibble) {pw : Nat} (s : State pw) : Host.Outcome (State pw) Fault Refusal :=
  let c0 := anchorCol (State.readReg s x)
  let r0 := anchorRow (State.readReg s y)
  match spriteBytes s.mem s.index.toNat (drawHeight n r0) with
  | .ok rows => .next (drawSprite s c0 r0 rows)
  | .error f => .fault f

end Sys2Proof.Machine
end

