-- ==== Sys2Proof/Machine/Registers.lean ====
section
/-! DEFINITION. The register instructions (42_registers.md). The PC is already the instruction's address plus 2. -/

namespace Sys2Proof.Machine

/-- `SetReg{x,nn}` (R130); x = 15 writes VF like any other register (10_state.md R21, log 26). -/
def execSetReg (x : Nibble) (nn : Byte) {pw : Nat} (s : State pw) : Host.Outcome (State pw) Fault Refusal :=
  .next (State.writeReg s x nn)

/-- `AddToReg{x,nn}` (R131): modulo 256, no carry, no flag. -/
def execAddToReg (x : Nibble) (nn : Byte) {pw : Nat} (s : State pw) : Host.Outcome (State pw) Fault Refusal :=
  .next (State.writeReg s x (State.readReg s x + nn))

/-- `SetIndex{nnn}` (R132). -/
def execSetIndex (nnn : Addr) {pw : Nat} (s : State pw) : Host.Outcome (State pw) Fault Refusal :=
  .next (State.setIndex s nnn)

end Sys2Proof.Machine
end

