-- ==== Sys2Proof/Machine/Terminal.lean ====
section
/-! DEFINITION. The catch-all instruction (40_execution_engine.md R99). -/

namespace Sys2Proof.Machine

/-- `Unsupported{w}` (R99): a normal end of the run, not an abort. -/
def execUnsupported (w : Word) {pw : Nat} (s : State pw) : Host.Outcome (State pw) Fault Refusal :=
  .next (State.haltUnsupported s w)

end Sys2Proof.Machine
end

