-- ==== Sys2Proof/Machine/Dispatch.lean ====
section
/-! DEFINITION. The exhaustive dispatch (40_execution_engine.md R96): one arm per instruction. -/

namespace Sys2Proof.Machine

/-- The effect of an instruction on a state whose PC is already past it (R94). -/
def exec (i : Instr) (s : State) : Host.Outcome State Fault Refusal :=
  match i with
  | .clearScreen => Sys2Proof.Machine.execClearScreen s
  | .leaveSubr => Sys2Proof.Machine.execLeaveSubr s
  | .jump nnn => Sys2Proof.Machine.execJump nnn s
  | .enterSubr nnn => Sys2Proof.Machine.execEnterSubr nnn s
  | .skipIfEq x nn => Sys2Proof.Machine.execSkipIfEq x nn s
  | .skipIfNEq x nn => Sys2Proof.Machine.execSkipIfNEq x nn s
  | .skipIfEqXY x y => Sys2Proof.Machine.execSkipIfEqXY x y s
  | .setReg x nn => Sys2Proof.Machine.execSetReg x nn s
  | .addToReg x nn => Sys2Proof.Machine.execAddToReg x nn s
  | .skipIfNEqXY x y => Sys2Proof.Machine.execSkipIfNEqXY x y s
  | .setIndex nnn => Sys2Proof.Machine.execSetIndex nnn s
  | .display x y n => Sys2Proof.Machine.execDisplay x y n s
  | .unsupported w => Sys2Proof.Machine.execUnsupported w s

end Sys2Proof.Machine
end

