-- ==== Sys2Proof/Machine/Engine.lean ====
section
/-! DEFINITION. The engine around the dispatch: bound check, alignment check, fetch, advance, decode
(40_execution_engine.md R90 to R101), and the placing of a word where the next step fetches it. -/

namespace Sys2Proof.Machine

/-- The fetch bound (R91). -/
def fetchFails (a : Nat) : Bool := decide (a < loadAddr) || decide (a > memSize - 2)

/-- The alignment check (R92) under the parameters `c`. -/
def misaligned (c : Config) {pw : Nat} (pc : BitVec pw) : Bool := pc.getLsbD 0 && c.misalignedPc == .abort

/-- The whole step (R101) over a dispatch: the order of the checks is R100 (log 23). -/
def engineStep (c : Config) {pw : Nat} (dispatch : Instr → State pw → Host.Outcome (State pw) Fault Refusal)
    (s : State pw) : Host.Outcome (State pw) Fault Refusal :=
  if s.run ≠ .running then .next s  -- R97: no step
  else if fetchFails s.pc.toNat then .next (State.haltProgramEnd s)  -- R91
  else if misaligned c s.pc then .next (State.raiseAbort s .misalignedPC)  -- R92
  else
    match Memory.fetch16 s.mem s.pc.toNat with  -- R93
    | .ok w => dispatch (decodeWith c w) (State.advance s)  -- R94 to R96
    | .error f => .fault f

/-- Is the PC one that the hardware build fetches from? -/
def pcFetchable (pc : Word) : Bool := !fetchFails pc.toNat && !misaligned hardwareBuild pc

/-- Make the next step fetch: `run` is Running, and a PC that no fetch accepts becomes the load address (log 14). -/
def readyToFetch (s : State) : State :=
  { s with run := .running, pc := if pcFetchable s.pc then s.pc else 0x0200#16 }

/-- The state with the word `w` stored where its next fetch reads. -/
def placeFetchWord (s : State) (w : Word) : State :=
  let r := readyToFetch s
  { r with mem := Memory.putAll r.mem r.pc.toNat (wordBytes w) }

end Sys2Proof.Machine
end

