-- ==== Sys2Proof/Machine/Step.lean ====
section
/-! DEFINITION. One step of the hardware build (40_execution_engine.md R101). -/

namespace Sys2Proof.Machine

/-- One activation of the block (R90). -/
def step (s : State) : Host.Outcome State Fault Refusal := engineStep hardwareBuild exec s

/-- `s` with the instruction of bits `w` stored where `step` fetches next (log 14). -/
def State.withFetchWord (s : State) (nbits w : Nat) : State := placeFetchWord s (tableWord nbits w)

end Sys2Proof.Machine
end

