-- ==== Sys2Proof/Asm.lean ====
section
/-! DEFINITION. The spec's operand syntax (30_encoding.md R84, R85): a line assembles to exactly one word or one byte. -/

namespace Sys2Proof

/-- One line of the syntax of R84. -/
inductive AsmLine where
  | insn (i : Instr)
  | word (w : Word)
  | byte (b : Byte)
deriving DecidableEq, Repr

/-- The bytes of one line (R85). -/
def AsmLine.bytes : AsmLine → List Byte
  | .insn i => encodeBytes i
  | .word w => wordBytes w
  | .byte b => [b]

/-- The image of a program text. -/
def assemble (ls : List AsmLine) : List Byte := ls.flatMap AsmLine.bytes

/-- One hexadecimal digit. -/
def hexDigit (n : Nibble) : Char := if n.toNat < 10 then Char.ofNat (48 + n.toNat) else Char.ofNat (55 + n.toNat)

/-- The low `digits` hexadecimal digits of a number, most significant first (00_scope.md R8). -/
def hexDigits (v : Nat) : Nat → List Char
  | 0 => []
  | d + 1 => hexDigits (v / 16) d ++ [hexDigit (BitVec.ofNat 4 v)]

/-- `0x` and the digits. -/
def hexText (v digits : Nat) : String := "0x" ++ String.ofList (hexDigits v digits)

/-- A register operand, V0 to VF. -/
def regText (x : Nibble) : String := "V" ++ String.ofList [hexDigit x]

/-- An instruction in the syntax of R84; an unsupported word is written `.word w`. -/
def Instr.text (i : Instr) : String :=
  match i with
  | .clearScreen | .leaveSubr => i.mnemonic
  | .jump nnn | .enterSubr nnn | .setIndex nnn => i.mnemonic ++ " " ++ hexText nnn.toNat 3
  | .skipIfEq x nn | .skipIfNEq x nn | .setReg x nn | .addToReg x nn =>
    i.mnemonic ++ " " ++ regText x ++ ", " ++ hexText nn.toNat 2
  | .skipIfEqXY x y | .skipIfNEqXY x y => i.mnemonic ++ " " ++ regText x ++ ", " ++ regText y
  | .display x y n => i.mnemonic ++ " " ++ regText x ++ ", " ++ regText y ++ ", " ++ hexText n.toNat 1
  | .unsupported w => ".word " ++ hexText w.toNat 4

end Sys2Proof
end

