-- ==== Sys2Proof/Machine/Parametric.lean ====
section
/-! DEFINITION. The block under any setting of the decision-backed parameters (00_scope.md R7), `PC_WIDTH` as the state's
own parameter among them: dispatch, step and reset. `step` and `State.reset` are these at
`hardwareBuild`. -/

namespace Sys2Proof.Machine

/-- The dispatch under the parameters `c`: only `EnterSubr` reads one (41_control_flow.md R113). -/
def execWith (c : Config) (i : Instr) (s : State c.pcWidth) : Host.Outcome (State c.pcWidth) Fault Refusal :=
  match i with
  | .enterSubr nnn => execEnterSubrWith c nnn s
  | .clearScreen => execClearScreen s
  | .leaveSubr => execLeaveSubr s
  | .jump nnn => execJump nnn s
  | .skipIfEq x nn => execSkipIfEq x nn s
  | .skipIfNEq x nn => execSkipIfNEq x nn s
  | .skipIfEqXY x y => execSkipIfEqXY x y s
  | .setReg x nn => execSetReg x nn s
  | .addToReg x nn => execAddToReg x nn s
  | .skipIfNEqXY x y => execSkipIfNEqXY x y s
  | .setIndex nnn => execSetIndex nnn s
  | .display x y n => execDisplay x y n s
  | .unsupported w => execUnsupported w s

/-- One activation of the block under the parameters `c` (40_execution_engine.md R101). -/
def stepWith (c : Config) (s : State c.pcWidth) : Host.Outcome (State c.pcWidth) Fault Refusal := engineStep c (execWith c) s

/-- `k` activations under the parameters `c`, stopping where a step stops. -/
def runWith (c : Config) : Nat → State c.pcWidth → Host.Outcome (State c.pcWidth) Fault Refusal
  | 0, s => .next s
  | k + 1, s =>
    match stepWith c s with
    | .next t => runWith c k t
    | .fault f => .fault f
    | .refused r => .refused r

/-- The canonical list of a whole address space given byte by byte. -/
def Memory.ofBytes (f : Nat → Byte) : Memory :=
  (List.range memSize).filterMap fun a => if f a = memFill then none else some (a, f a)

/-- V0 to VF at reset (10_state.md R23). -/
def resetRegs (c : Config) : Vector Byte 16 :=
  match c.resetRegs with
  | .zero => Vector.replicate 16 0x00#8
  | .draw => Vector.ofFn fun i => drawnReg i.val

/-- I at reset (10_state.md R29). -/
def resetIndex (c : Config) : Addr :=
  match c.resetRegs with
  | .zero => 0x000#12
  | .draw => drawnIndex

/-- Memory at reset, before the host load (10_state.md R34). -/
def resetMem (c : Config) : Memory :=
  match c.resetMemFill with
  | .zero => []
  | .draw => Memory.ofBytes drawnByte

/-- The state right after reset under the parameters `c` (70_reset_and_hazards.md R190). -/
def State.resetWith (c : Config) : State c.pcWidth := State.resetAt (resetRegs c) (resetIndex c) (resetMem c)

/-- The same state at another `PC_WIDTH`: the PC and the return addresses are the same numbers, as far as the width holds
them (92_eei_decisions.md D2; log 9). -/
def State.atPcWidth (w : Nat) {pw : Nat} (s : State pw) : State w where
  v := s.v
  index := s.index
  pc := s.pc.setWidth w
  stack := s.stack.map fun a => a.setWidth w
  run := s.run
  runState := s.runState
  haltWord := s.haltWord
  haltAddr := s.haltAddr
  abortReason := s.abortReason
  fb := s.fb
  mem := s.mem
  events := s.events

end Sys2Proof.Machine
end

