-- ==== Sys2Proof/Machine/Boot.lean ====
section
/-! DEFINITION. The block with its host interface: reset, load port, release, step activation
(00_scope.md R6; 70_reset_and_hazards.md R190 to R194). -/

namespace Sys2Proof.Machine

/-- The host load port (R193): `M[0x200 + i] = img[i]`; an image that does not fit is refused. -/
def loadImage (img : List Byte) {pw : Nat} (s : State pw) : Host.Outcome (State pw) Fault Refusal :=
  if img.length ≤ maxImage then .next { s with mem := Memory.putAll s.mem loadAddr img }
  else .refused (.imageTooLarge img.length)

/-- Reset, load and release in one (R192): the state whose next step is the program's first. -/
def bootWith (c : Config) (img : List Byte) : Host.Outcome (State c.pcWidth) Fault Refusal :=
  loadImage img (State.resetWith c)

/-- The boot of the hardware build. -/
def boot (img : List Byte) : Host.Outcome State Fault Refusal := bootWith hardwareBuild img

/-- Where the block stands towards its host. -/
inductive BootPhase where
  /-- Reset is held: the block takes no step and the load port is open. -/
  | held
  /-- A fatal initialization error (R192, R193): the block stays in reset and never runs. -/
  | failed
  /-- Reset is released: the block steps. -/
  | released
deriving DecidableEq, Repr

/-- The block as the host sees it. -/
structure Block (pcWidth : Nat := 16) where
  phase : BootPhase
  core : State pcWidth
deriving DecidableEq, Repr

/-- What the host may do (R194). -/
inductive HostAction where
  /-- Assert reset, at any time: all state discarded, M included (R190). -/
  | assertReset
  /-- Write an image through the load port (R193). -/
  | load (img : List Byte)
  /-- A file-read or display-initialization failure outside the block (R192). -/
  | initFailure
  /-- Release reset. -/
  | releaseReset
  /-- Activate the block once (40_execution_engine.md R90). -/
  | activate
deriving DecidableEq, Repr

/-- The block right after reset is asserted. -/
def Block.inReset (c : Config) : Block c.pcWidth := ⟨.held, State.resetWith c⟩

/-- One load while reset is held: an image that does not fit ends the boot (R193). -/
def Block.load {pw : Nat} (b : Block pw) (img : List Byte) : Block pw :=
  match loadImage img b.core with
  | .next s => { b with core := s }
  | .fault _ => { b with phase := .failed }
  | .refused _ => { b with phase := .failed }

/-- One activation of a released block; a step that stops leaves the state as it was. -/
def Block.activate (c : Config) (b : Block c.pcWidth) : Block c.pcWidth :=
  match stepWith c b.core with
  | .next s => { b with core := s }
  | .fault _ => b
  | .refused _ => b

/-- The effect of a host action. Out of its phase an action has none: the load port is closed while the block runs, a held
or failed block takes no step, and a failed boot is left only by a new reset (log 17). -/
def Block.act (c : Config) (b : Block c.pcWidth) (a : HostAction) : Block c.pcWidth :=
  match a, b.phase with
  | .assertReset, _ => Block.inReset c
  | .load img, .held => Block.load b img
  | .load _, .failed => b
  | .load _, .released => b
  | .initFailure, .held => { b with phase := .failed }
  | .initFailure, .failed => b
  | .initFailure, .released => b
  | .releaseReset, .held => { b with phase := .released }
  | .releaseReset, .failed => b
  | .releaseReset, .released => b
  | .activate, .held => b
  | .activate, .failed => b
  | .activate, .released => Block.activate c b

/-- A sequence of host actions, first to last. -/
def Block.acts (c : Config) (b : Block c.pcWidth) : List HostAction → Block c.pcWidth
  | [] => b
  | a :: as => Block.acts c (Block.act c b a) as

end Sys2Proof.Machine
end

