-- ==== Sys2Proof/Safety.lean ====
section
/-! DEFINITION. What counts as an end, a fault and a safe run, the frames claims use, and the machine's invariant. -/

namespace Sys2Proof.Machine

/-! ### Ends of a run (40_execution_engine.md R98, 60_exceptions.md R171, R172) -/

/-- The run has ended. -/
abbrev RunEnded {pw : Nat} (s : State pw) : Prop := s.run ≠ .running

/-- A modeled terminal condition: a normal, final end of the run (R98). -/
abbrev NormalEnd {pw : Nat} (s : State pw) : Prop := s.run = .programEnd ∨ s.run = .haltedUnsupported

/-- A contract violation: a fault, never a normal final state (R98, R172; log 1). -/
abbrev Faulted {pw : Nat} (s : State pw) : Prop := ∃ r, s.run = .aborted r

/-- No state the run from `s` reaches is faulted. -/
def SafeRun (s : State) : Prop := ∀ k t, Host.Core.run Sys2Proof.core k s = .next t → ¬ Faulted t

/-! ### What a step may fetch (40_execution_engine.md R91 to R93) -/

/-- The next step fetches the word `w`: the block runs, the PC is in [0x200, 0xFFE] and even, and the big-endian word
there is `w`. -/
def FetchesWord {pw : Nat} (s : State pw) (w : Word) : Prop :=
  s.run = .running ∧ 0x200 ≤ s.pc.toNat ∧ s.pc.toNat ≤ 0xFFE ∧ s.pc.toNat % 2 = 0 ∧
    w.toNat = (Memory.byte s.mem s.pc.toNat).toNat * 256 + (Memory.byte s.mem (s.pc.toNat + 1)).toNat

/-- The next step checks the PC of `t`, bound first, alignment second (41_control_flow.md R112; 40_execution_engine.md R91,
R92): out of range it ends the run, odd it aborts. -/
def CheckedByNextFetch (t : State) : Prop :=
  (t.pc.toNat < 0x200 ∨ 0xFFE < t.pc.toNat → step t = .next { t with run := .programEnd, runState := 1#2 }) ∧
  (0x200 ≤ t.pc.toNat → t.pc.toNat ≤ 0xFFE → t.pc.toNat % 2 = 1 →
    step t = .next { t with run := .aborted .misalignedPC, runState := 3#2, abortReason := 3#3 })

/-- The step does nothing but move the PC by `d` bytes. -/
def StepMovesPcBy (d : Nat) (s : State) : Prop := step s = .next { s with pc := BitVec.ofNat 16 (s.pc.toNat + d) }

/-- The PC and the return addresses are in the range of 10_state.md R27: at most 0x1002 and 0x1000. -/
def PcInRange {pw : Nat} (s : State pw) : Prop := s.pc.toNat ≤ 0x1002 ∧ ∀ e ∈ s.stack, e.toNat ≤ 0x1000

/-! ### Frames: what stays -/

/-- The general registers an instruction writes (10_state.md R22). -/
def regsWritten : Instr → List Nibble
  | .setReg x _ | .addToReg x _ => [x]
  | .display _ _ _ => [0xF#4]
  | .clearScreen | .leaveSubr | .jump _ | .enterSubr _ | .skipIfEq _ _ | .skipIfNEq _ _ | .skipIfEqXY _ _
  | .skipIfNEqXY _ _ | .setIndex _ | .unsupported _ => []

/-- Every general register but those of `written` is unchanged. -/
def RegsKept {pw : Nat} (s t : State pw) (written : List Nibble) : Prop := ∀ r, r ∉ written → State.readReg t r = State.readReg s r

/-- `run` and the four status outputs are unchanged. -/
def StatusKept {pw : Nat} (s t : State pw) : Prop :=
  t.run = s.run ∧ t.runState = s.runState ∧ t.haltWord = s.haltWord ∧ t.haltAddr = s.haltAddr ∧
    t.abortReason = s.abortReason

/-- Every framebuffer cell is unchanged. -/
def GridKept {pw : Nat} (s t : State pw) : Prop := ∀ r c, Framebuffer.cell t.fb r c = Framebuffer.cell s.fb r c

/-- Every byte of memory is unchanged. -/
def MemoryKept {pw : Nat} (s t : State pw) : Prop := ∀ a, Memory.byte t.mem a = Memory.byte s.mem a

/-! ### The sprite rectangle (43_display.md R142 to R149), in the spec's closed form -/

/-- How many sprite rows are drawn: clipped at the bottom edge and at the end of memory (R144, R146). -/
def rowsDrawn (n : Nibble) (r0 base : Nat) : Nat := min (min n.toNat (32 - r0)) (4096 - base)

/-- Is cell (r, c) inside the drawn rectangle of the sprite `n` rows high, anchored at (r0, c0), read from `base`? -/
def inSprite (n : Nibble) (r0 c0 base r c : Nat) : Bool :=
  decide (r0 ≤ r) && decide (r < r0 + rowsDrawn n r0 base) && decide (c0 ≤ c) && decide (c < c0 + min 8 (64 - c0))

/-- The sprite bit over cell (r, c): bit `7 - (c - c0)` of the byte at `base + (r - r0)`, 0 outside the rectangle (R147). -/
def spriteBitAt (m : Memory) (n : Nibble) (r0 c0 base r c : Nat) : Bool :=
  inSprite n r0 c0 base r c && (Memory.byte m (base + (r - r0))).getLsbD (7 - (c - c0))

/-- The sprite bit over cell (r, c) of `Display{x,y,n}` in state `s`. -/
def displayBit {pw : Nat} (s : State pw) (x y n : Nibble) (r c : Nat) : Bool :=
  spriteBitAt s.mem n ((State.readReg s y).toNat % 32) ((State.readReg s x).toNat % 64) s.index.toNat r c

/-! ### The invariant -/

/-- `halt_word` and `halt_addr` name the fetched word that halted the run, and are 0 in every other state
(10_state.md R32). -/
def HaltRecord {pw : Nat} (s : State pw) : Prop :=
  if s.run = .haltedUnsupported then
    Memory.fetch16 s.mem s.haltAddr.toNat = .ok s.haltWord ∧ decode s.haltWord = .unsupported s.haltWord ∧
      s.pc.toNat = s.haltAddr.toNat + 2
  else s.haltWord = 0#16 ∧ s.haltAddr = 0#16

/-- Each terminal state comes with the condition that raised it (60_exceptions.md R170). -/
def TerminalCause {pw : Nat} (s : State pw) : Prop :=
  match s.run with
  | .running | .haltedUnsupported => True
  | .programEnd => s.pc.toNat < 0x200 ∨ 0xFFE < s.pc.toNat
  | .aborted .emptyStackPop => s.stack = []
  | .aborted .stackOverflow => s.stack.length = 16
  | .aborted .misalignedPC => 0x200 ≤ s.pc.toNat ∧ s.pc.toNat ≤ 0xFFE ∧ s.pc.toNat % 2 = 1
  | .aborted .registerIndexOutOfRange | .aborted .bitPositionOutOfRange => False

/-- The `abort_reason` that goes with a run state (10_state.md R32). -/
def reasonOf : RunState → BitVec 3
  | .aborted r => AbortReason.code r
  | .running | .programEnd | .haltedUnsupported => 0#3

/-- What every state of a run of the hardware build satisfies, written for any `PC_WIDTH`. -/
structure Inv {pw : Nat} (s : State pw) : Prop where
  /-- Memory keeps its canonical form, inside the address space (10_state.md R34). -/
  mem_wf : Memory.wf s.mem = true
  /-- `run_state` is the code of `run` (10_state.md R32). -/
  run_code : s.runState = RunState.code s.run
  /-- `abort_reason` is the code of the reason, 0 when not aborted (10_state.md R32). -/
  abort_code : s.abortReason = reasonOf s.run
  halt_record : HaltRecord s
  cause : TerminalCause s
  /-- The stack holds at most `STACK_DEPTH` entries (10_state.md R31). -/
  stack_bound : s.stack.length ≤ 16
  /-- Pushed return addresses are at most 0x1000 (10_state.md R27), at least 0x202, and even. -/
  stack_entries : ∀ e ∈ s.stack, 0x202 ≤ e.toNat ∧ e.toNat ≤ 0x1000 ∧ e.toNat % 2 = 0
  /-- The largest value PC can hold is 0x1002 (10_state.md R27). -/
  pc_bound : s.pc.toNat ≤ 0x1002
  /-- Every `SetCell` names a cell of the grid (43_display.md R160). -/
  events_in_grid : ∀ r c b, SinkEvent.setCell r c b ∈ s.events → r < 32 ∧ c < 64
  /-- Every sequence of events ends with `Flush` (43_display.md R160). -/
  events_flushed : s.events = [] ∨ s.events.getLast? = some .flush

end Sys2Proof.Machine
end

