-- ==== Sys2Proof/Certificates/Slice0/Obligations.lean ====
section
/-! DEFINITION. The statements for the provers, each with the rule of spec/ it comes from. Words are written as numbers from
the patterns of 30_encoding.md R64, not through the model's encoder, wherever a rule names an encoding. -/

open Sys2Proof Sys2Proof.Machine

/-! ## Reset and the host interface -/

/-- 10_state.md R28: the PC resets to 0x200 (at every `PC_WIDTH` that holds it), and the first fetch after a boot is the
image's first word. -/
def Obligations.ResetVectorIsTheLoadAddress : Prop :=
  State.reset.pc = 0x200#16 ∧ (∀ c : Config, 10 ≤ c.pcWidth → (State.resetWith c).pc.toNat = 0x200) ∧
  ∀ (hi lo : Byte) (rest : List Byte), rest.length ≤ 3582 →
    ∃ s, boot (hi :: lo :: rest) = .next s ∧ FetchesWord s (BitVec.ofNat 16 (hi.toNat * 256 + lo.toNat))

/-- The rest of the reset state. The zeros of V, I and M are the spec's decisions D8 to D10, not its source's
(log 2, 3, 4). -/
def Obligations.ResetLeavesTheDecidedValues : Prop :=
  (∀ x, State.readReg State.reset x = 0#8) ∧ State.reset.index = 0#12 ∧ (∀ a, Memory.byte State.reset.mem a = 0#8) ∧
  State.reset.stack = [] ∧ State.reset.run = .running ∧ State.reset.runState = 0#2 ∧ State.reset.haltWord = 0#16 ∧
  State.reset.haltAddr = 0#16 ∧ State.reset.abortReason = 0#3 ∧ (∀ r c, Framebuffer.cell State.reset.fb r c = false) ∧
  State.reset.events = []

/-- The invariant holds at reset, whatever the reset parameters draw. -/
def Obligations.ResetMeetsTheInvariant : Prop := Inv State.reset ∧ ∀ c, Inv (State.resetWith c)

/-- The load port puts the image at 0x200 and leaves every other byte its reset fill; an image over 3584 bytes is refused and
the block never runs (70_reset_and_hazards.md §2). That only a new reset leaves a failed boot, a retried load being ignored,
and that a load while the block runs has no effect, are the model's choices (log 17, DESIGN CHOICE): the spec gives only a
host duty there. -/
def Obligations.LoadPortPlacesTheImageOrRefusesIt : Prop :=
  (∀ (c : Config) (img : List Byte), img.length ≤ 3584 →
    ∃ s, bootWith c img = .next s ∧ s = { State.resetWith c with mem := s.mem } ∧ Memory.wf s.mem = true ∧
      ∀ a, Memory.byte s.mem a =
        if 0x200 ≤ a ∧ a < 0x200 + img.length then img.getD (a - 0x200) 0#8
        else Memory.byte (State.resetWith c).mem a) ∧
  (∀ (c : Config) (img : List Byte), 3584 < img.length →
    bootWith c img = .refused (.imageTooLarge img.length) ∧
    ∀ as : List HostAction, HostAction.assertReset ∉ as →
      Block.acts c (Block.inReset c) (.load img :: as) = ⟨.failed, State.resetWith c⟩) ∧
  ∀ (c : Config) (img : List Byte) (b : Block c.pcWidth), b.phase = .released → Block.act c b (.load img) = b

/-- While reset is held the block takes no step, whatever the host does short of releasing it or asserting it again: only
loads change memory, and nothing else of the state moves (70_reset_and_hazards.md §1). That an action out of its phase has no effect is the model's
choice (log 17, DESIGN CHOICE). -/
def Obligations.HeldBlockTakesNoStep : Prop :=
  ∀ (c : Config) (b : Block c.pcWidth) (as : List HostAction), b.phase ≠ .released →
    HostAction.releaseReset ∉ as → HostAction.assertReset ∉ as →
    (Block.acts c b as).phase ≠ .released ∧
    (Block.acts c b as).core = { b.core with mem := (Block.acts c b as).core.mem }

/-! ## Invariant of every step -/

/-- Every step from a state that meets the invariant gives a state that meets it: canonical memory, status outputs that
agree with `run`, halt record, stack bound and entries, PC bound, well-placed and flushed events. -/
def Obligations.StepKeepsTheInvariant : Prop := ∀ s t : State, Inv s → step s = .next t → Inv t

/-! ## Encoding -/

/-- 30_encoding.md R66 to R74, family by family, on the word as a number. -/
def Obligations.DecoderFollowsTheFamilies : Prop :=
  ∀ (c : Config) (w : Word),
    let v := w.toNat
    let f := v / 4096
    let x := BitVec.ofNat 4 (v / 256 % 16)
    let y := BitVec.ofNat 4 (v / 16 % 16)
    let n := BitVec.ofNat 4 (v % 16)
    let nn := BitVec.ofNat 8 (v % 256)
    let nnn := BitVec.ofNat 12 (v % 4096)
    (f = 0x0 → decodeWith c w =
      if c.family0Strict = true ∧ v / 256 % 16 ≠ 0 then .unsupported w
      else if v % 256 = 0xE0 then .clearScreen else if v % 256 = 0xEE then .leaveSubr else .unsupported w) ∧
    (f = 0x1 → decodeWith c w = .jump nnn) ∧
    (f = 0x2 → decodeWith c w = .enterSubr nnn) ∧
    (f = 0x3 → decodeWith c w = .skipIfEq x nn) ∧
    (f = 0x4 → decodeWith c w = .skipIfNEq x nn) ∧
    (f = 0x5 → decodeWith c w =
      if c.strictLowNibble59 = true ∧ v % 16 ≠ 0 then .unsupported w else .skipIfEqXY x y) ∧
    (f = 0x6 → decodeWith c w = .setReg x nn) ∧
    (f = 0x7 → decodeWith c w = .addToReg x nn) ∧
    (f = 0x9 → decodeWith c w =
      if c.strictLowNibble59 = true ∧ v % 16 ≠ 0 then .unsupported w else .skipIfNEqXY x y) ∧
    (f = 0xA → decodeWith c w = .setIndex nnn) ∧
    (f = 0xD → decodeWith c w = .display x y n) ∧
    (f = 0x8 ∨ f = 0xB ∨ f = 0xC ∨ f = 0xE ∨ f = 0xF → decodeWith c w = .unsupported w)

/-- 30_encoding.md R79: the document's literal decoder cases. -/
def Obligations.DecoderGivesTheLiteralCases : Prop :=
  decode 0x00E0#16 = .clearScreen ∧ decode 0x00EE#16 = .leaveSubr ∧ decode 0x1ABC#16 = .jump 0xABC#12 ∧
  decode 0x63FF#16 = .setReg 3#4 0xFF#8 ∧ decode 0xA123#16 = .setIndex 0x123#12 ∧
  decode 0xD015#16 = .display 0#4 1#4 5#4 ∧ decode 0xFFFF#16 = .unsupported 0xFFFF#16

/-- Decode and encode agree on every well-formed instruction, under every parameter setting, as words and in a byte stream.
The last clause, that fewer than two bytes give the error `truncated`, is the model's choice (log 25, DESIGN CHOICE). -/
def Obligations.DecodeOfEncodeIsTheInstruction : Prop :=
  (∀ (c : Config) (i : Instr), i.wfWith c = true →
    decodeWith c (encode i) = i ∧ ∀ rest, decodeBytesWith c (encodeBytes i ++ rest) = .ok (i, rest)) ∧
  ∀ (c : Config) (bs : List Byte), bs.length < 2 → decodeBytesWith c bs = .error (.truncated bs.length)

/-- No bit of a word is lost by the decoder of the hardware build, but for the ignored bits 11:8 of family 0x0; and what it
gives is always well-formed. -/
def Obligations.EncodeOfDecodeIsTheWord : Prop :=
  ∀ w : Word, (decode w).wf = true ∧
    (decode w ≠ .clearScreen → decode w ≠ .leaveSubr → encode (decode w) = w) ∧
    (decode w = .clearScreen ∨ decode w = .leaveSubr → (encode (decode w)).toNat = w.toNat % 256 ∧ w.toNat < 4096)

/-- No two rows of the opcode table match the same word, so the rows may be tried in any order, `Unsupported` last, and the
lookup names the instruction the decoder gives (30_encoding.md §5). -/
def Obligations.TableLookupAgreesWithTheDecoderInAnyOrder : Prop :=
  ∀ c : Config,
    (opcodeTable c).Pairwise (fun r q => ∀ w, ¬ (r.hits w = true ∧ q.hits w = true)) ∧
    ∀ rows, rows.Perm (opcodeTable c) → ∀ w, lookupRow rows w = (decodeWith c w).mnemonic

/-- An assembled program sits in memory word for word: booted from its assembled text, the bytes from 0x200 on are the words
of its instructions (30_encoding.md §7, 70_reset_and_hazards.md §2). -/
def Obligations.AssembledInstructionsAreFetchedInOrder : Prop :=
  ∀ is : List Instr, (∀ i ∈ is, i.wf = true) → is.length ≤ 1792 →
    ∃ s, boot (assemble (is.map AsmLine.insn)) = .next s ∧
      ∀ k i, is[k]? = some i →
        ∃ w, FetchesWord { s with pc := BitVec.ofNat 16 (0x200 + 2 * k) } w ∧ decode w = i

/-! ## The engine -/

/-- 40_execution_engine.md R93, R94: the step fetches the big-endian word at the PC, moves the PC past it, and runs the
instruction it decodes to. -/
def Obligations.StepRunsTheDecodedInstruction : Prop :=
  ∀ (s : State) (w : Word), FetchesWord s w →
    step s = exec (decode w) { s with pc := BitVec.ofNat 16 (s.pc.toNat + 2) }

/-- When memory at the PC holds the word of a well-formed instruction, the step runs that instruction. -/
def Obligations.StepRunsTheEncodedInstruction : Prop :=
  ∀ (s : State) (i : Instr), i.wf = true → FetchesWord s (encode i) →
    step s = exec i { s with pc := BitVec.ofNat 16 (s.pc.toNat + 2) }

/-- 40_execution_engine.md R91: a fetch outside [0x200, 0xFFE] ends the run and changes nothing else, under every parameter
setting. -/
def Obligations.FetchOutOfBoundsEndsTheProgram : Prop :=
  (∀ (c : Config) (s : State c.pcWidth), s.run = .running → (s.pc.toNat < 0x200 ∨ 0xFFE < s.pc.toNat) →
    stepWith c s = .next { s with run := .programEnd, runState := 1#2 }) ∧
  ∀ s : State, s.run = .running → (s.pc.toNat < 0x200 ∨ 0xFFE < s.pc.toNat) →
    step s = .next { s with run := .programEnd, runState := 1#2 }

/-- 40_execution_engine.md R92: a fetch at an odd PC inside the bounds aborts, or fetches there, as the policy says; the
hardware build aborts. -/
def Obligations.OddPcFollowsThePolicy : Prop :=
  (∀ s : State, s.run = .running → 0x200 ≤ s.pc.toNat → s.pc.toNat ≤ 0xFFE → s.pc.toNat % 2 = 1 →
    step s = .next { s with run := .aborted .misalignedPC, runState := 3#2, abortReason := 3#3 }) ∧
  ∀ (c : Config) (s : State c.pcWidth),
    s.run = .running → 0x200 ≤ s.pc.toNat → s.pc.toNat ≤ 0xFFE → s.pc.toNat % 2 = 1 →
    (c.misalignedPc = .abort →
      stepWith c s = .next { s with run := .aborted .misalignedPC, runState := 3#2, abortReason := 3#3 }) ∧
    ∀ w : Word, c.misalignedPc = .fetch →
      w.toNat = (Memory.byte s.mem s.pc.toNat).toNat * 256 + (Memory.byte s.mem (s.pc.toNat + 1)).toNat →
      stepWith c s = execWith c (decodeWith c w) { s with pc := BitVec.ofNat c.pcWidth (s.pc.toNat + 2) }

/-- 40_execution_engine.md R97: once the run has ended no number of steps changes the state; a reset does leave it. -/
def Obligations.TerminalStatesAreAbsorbing : Prop :=
  (∀ (s : State) (k : Nat), s.run ≠ .running → Host.Core.run Sys2Proof.core k s = .next s) ∧
  (∀ (c : Config) (s : State c.pcWidth) (k : Nat), s.run ≠ .running → runWith c k s = .next s) ∧
  ∀ (c : Config) (b : Block c.pcWidth), (Block.act c b .assertReset).core.run = .running

/-- 40_execution_engine.md §2: a run's end is either normal or a fault, never both, and a run that has ended normally stays
free of faults. -/
def Obligations.EndsAreNormalOrFaultedNeverBoth : Prop :=
  ∀ s : State, (RunEnded s ↔ NormalEnd s ∨ Faulted s) ∧ ¬ (NormalEnd s ∧ Faulted s) ∧ (NormalEnd s → SafeRun s)

/-- 60_exceptions.md R175: which outcome a step has, by the order of the checks. -/
def Obligations.OutcomeOfAStepFollowsThePriority : Prop :=
  ∀ s : State, s.run = .running → ∃ t, step s = .next t ∧
    (s.pc.toNat < 0x200 ∨ 0xFFE < s.pc.toNat → t.run = .programEnd) ∧
    (0x200 ≤ s.pc.toNat → s.pc.toNat ≤ 0xFFE → s.pc.toNat % 2 = 1 → t.run = .aborted .misalignedPC) ∧
    ∀ w : Word, FetchesWord s w →
      (decode w = .unsupported w → t.run = .haltedUnsupported) ∧
      (decode w = .leaveSubr → t.run = if s.stack = [] then .aborted .emptyStackPop else .running) ∧
      (∀ nnn, decode w = .enterSubr nnn → t.run = if s.stack.length = 16 then .aborted .stackOverflow else .running) ∧
      (decode w ≠ .unsupported w → decode w ≠ .leaveSubr → (∀ nnn, decode w ≠ .enterSubr nnn) → t.run = .running)

/-- 60_exceptions.md R172: an abort sets `run`, `run_state` and `abort_reason` and nothing else; the PC advance has happened
but for a misaligned fetch; it is a fault, never a normal end. -/
def Obligations.AbortRecordsItsReasonAndNothingElse : Prop :=
  ∀ (s t : State) (r : AbortReason), s.run = .running → step s = .next t → t.run = .aborted r →
    t = { s with
          pc := if r = .misalignedPC then s.pc else BitVec.ofNat 16 (s.pc.toNat + 2)
          run := .aborted r
          runState := 3#2
          abortReason :=
            match r with
            | .emptyStackPop => 1#3
            | .stackOverflow => 2#3
            | .misalignedPC => 3#3
            | .registerIndexOutOfRange => 4#3
            | .bitPositionOutOfRange => 5#3 } ∧
    Faulted t ∧ ¬ NormalEnd t ∧ r ≠ .registerIndexOutOfRange ∧ r ≠ .bitPositionOutOfRange

/-- No step and no instruction answers the host's `fault` or `refused`, in any state, under any parameter setting: no memory
access can fault and no arithmetic can (60_exceptions.md §1, 20_memory.md §6). The next state may be an aborted one: that
the contract violations the spec has a model treat as faults are next states with `run` = aborted is the model's reading
(log 1, DEDUCED), and `Faulted` names them. -/
def Obligations.EveryStepAnswersANextState : Prop :=
  (∀ (c : Config) (s : State c.pcWidth), ∃ t, stepWith c s = .next t) ∧
  (∀ s : State, ∃ t, step s = .next t) ∧
  (∀ (c : Config) (i : Instr) (s : State c.pcWidth), ∃ t, execWith c i s = .next t) ∧
  ∀ (i : Instr) (s : State), ∃ t, exec i s = .next t

/-- Where each step leaves the PC (10_state.md §2, the table). -/
def Obligations.PcAfterAStepFollowsTheTable : Prop :=
  ∀ (s t : State) (w : Word), FetchesWord s w → step s = .next t →
    match decode w with
    | .jump nnn => t.pc.toNat = nnn.toNat
    | .enterSubr nnn => t.pc.toNat = if s.stack.length = 16 then s.pc.toNat + 2 else nnn.toNat
    | .leaveSubr => t.pc = s.stack.getLast?.getD (BitVec.ofNat 16 (s.pc.toNat + 2))
    | .skipIfEq x nn => t.pc.toNat = if State.readReg s x = nn then s.pc.toNat + 4 else s.pc.toNat + 2
    | .skipIfNEq x nn => t.pc.toNat = if State.readReg s x = nn then s.pc.toNat + 2 else s.pc.toNat + 4
    | .skipIfEqXY x y =>
      t.pc.toNat = if State.readReg s x = State.readReg s y then s.pc.toNat + 4 else s.pc.toNat + 2
    | .skipIfNEqXY x y =>
      t.pc.toNat = if State.readReg s x = State.readReg s y then s.pc.toNat + 2 else s.pc.toNat + 4
    | .clearScreen | .setReg _ _ | .addToReg _ _ | .setIndex _ | .display _ _ _ | .unsupported _ =>
      t.pc.toNat = s.pc.toNat + 2

/-- 40_execution_engine.md R99: an unsupported word halts the run, recording the word and its address; nothing else changes
and the advance stays. -/
def Obligations.UnsupportedHaltsAndRecordsTheWord : Prop :=
  (∀ (w : Word) (s : State), exec (.unsupported w) s =
    .next { s with run := .haltedUnsupported, runState := 2#2, haltWord := w, haltAddr := s.pc - 2#16 }) ∧
  ∀ (s : State) (w : Word), FetchesWord s w → decode w = .unsupported w →
    step s = .next { s with
      pc := BitVec.ofNat 16 (s.pc.toNat + 2), run := .haltedUnsupported, runState := 2#2, haltWord := w, haltAddr := s.pc }

/-- The word placed by `withFetchWord` is the one the next step fetches; a state that was ready to fetch changes only in its
memory. The model's own convention (log 14). -/
def Obligations.PlacedFetchWordIsFetchedNext : Prop :=
  ∀ (s : State) (w : Word), Memory.wf s.mem = true →
    FetchesWord (State.withFetchWord s 16 w.toNat) w ∧
    step (State.withFetchWord s 16 w.toNat) = exec (decode w) (State.advance (State.withFetchWord s 16 w.toNat)) ∧
    (∀ w', FetchesWord s w' →
      State.withFetchWord s 16 w.toNat = { s with mem := (State.withFetchWord s 16 w.toNat).mem } ∧
      ∀ a, a ≠ s.pc.toNat → a ≠ s.pc.toNat + 1 →
        Memory.byte (State.withFetchWord s 16 w.toNat).mem a = Memory.byte s.mem a)

/-! ## Control transfer -/

/-- 41_control_flow.md R110: a return pops the top of the stack into the PC, and on an empty stack aborts; the popped value
is checked by the next fetch only. -/
def Obligations.LeaveSubrPopsIntoThePcOrAborts : Prop :=
  (∀ s : State, s.stack = [] →
    exec .leaveSubr s = .next { s with run := .aborted .emptyStackPop, runState := 3#2, abortReason := 1#3 }) ∧
  (∀ (s : State) (rest : List Word) (top : Word), s.stack = rest ++ [top] →
    ∃ t, exec .leaveSubr s = .next t ∧ t = { s with stack := rest, pc := top } ∧
      (s.run = .running → CheckedByNextFetch t)) ∧
  ∀ x : Nat, x < 16 → decode (BitVec.ofNat 16 (x * 256 + 0xEE)) = .leaveSubr

/-- 41_control_flow.md R111: a jump sets the PC to its absolute target, checked by the next fetch only; a jump to itself
never ends the run. -/
def Obligations.JumpSetsThePcToItsTarget : Prop :=
  ∀ nnn : Addr,
    (∀ s : State, ∃ t, exec (.jump nnn) s = .next t ∧ t = { s with pc := BitVec.ofNat 16 nnn.toNat } ∧
      (s.run = .running → CheckedByNextFetch t)) ∧
    decode (BitVec.ofNat 16 (0x1000 + nnn.toNat)) = .jump nnn ∧
    ∀ s : State, FetchesWord s (BitVec.ofNat 16 (0x1000 + nnn.toNat)) → s.pc.toNat = nnn.toNat →
      ∀ k, Host.Core.run Sys2Proof.core k s = .next s

/-- 41_control_flow.md R113: a call pushes the PC and sets it to the target, or aborts on a full stack, for every stack
depth; the hardware build takes 16. A call to itself pushes once a step until the stack is full, or forever. -/
def Obligations.EnterSubrPushesAndJumpsOrAborts : Prop :=
  ∀ nnn : Addr,
    (∀ s : State, s.stack.length = 16 →
      exec (.enterSubr nnn) s = .next { s with run := .aborted .stackOverflow, runState := 3#2, abortReason := 2#3 }) ∧
    (∀ s : State, s.stack.length ≠ 16 →
      ∃ t, exec (.enterSubr nnn) s = .next t ∧
        t = { s with stack := s.stack ++ [s.pc], pc := BitVec.ofNat 16 nnn.toNat } ∧
        (s.run = .running → CheckedByNextFetch t)) ∧
    (∀ (c : Config) (s : State c.pcWidth), c.stackDepth = some s.stack.length →
      execWith c (.enterSubr nnn) s =
        .next { s with run := .aborted .stackOverflow, runState := 3#2, abortReason := 2#3 }) ∧
    (∀ (c : Config) (s : State c.pcWidth), c.stackDepth ≠ some s.stack.length →
      execWith c (.enterSubr nnn) s =
        .next { s with stack := s.stack ++ [s.pc], pc := BitVec.ofNat c.pcWidth nnn.toNat }) ∧
    decode (BitVec.ofNat 16 (0x2000 + nnn.toNat)) = .enterSubr nnn ∧
    ∀ (c : Config) (s : State c.pcWidth), FetchesWord s (BitVec.ofNat 16 (0x2000 + nnn.toNat)) → s.pc.toNat = nnn.toNat →
      ∀ k, (∀ d, c.stackDepth = some d → s.stack.length + k ≤ d) →
        runWith c k s =
          .next { s with stack := s.stack ++ List.replicate k (BitVec.ofNat c.pcWidth (s.pc.toNat + 2)) } ∧
        (c.stackDepth = some (s.stack.length + k) →
          runWith c (k + 1) s = .next { s with
            stack := s.stack ++ List.replicate k (BitVec.ofNat c.pcWidth (s.pc.toNat + 2))
            pc := BitVec.ofNat c.pcWidth (s.pc.toNat + 2)
            run := .aborted .stackOverflow
            runState := 3#2
            abortReason := 2#3 })

/-- A return undoes a call: last in, first out, with whatever the subroutine did to the rest of the state
(10_state.md §5). -/
def Obligations.ReturnUndoesTheCall : Prop :=
  ∀ (s t m : State) (nnn : Addr), s.stack.length ≠ 16 → exec (.enterSubr nnn) s = .next t → m.stack = t.stack →
    exec .leaveSubr m = .next { m with stack := s.stack, pc := s.pc }

/-- Under an unbounded stack no run overflows it (00_scope.md §3, decision D3). -/
def Obligations.UnboundedStackNeverOverflows : Prop :=
  ∀ (c : Config) (k : Nat) (s t : State c.pcWidth), c.stackDepth = none → s.run ≠ .aborted .stackOverflow →
    runWith c k s = .next t → t.run ≠ .aborted .stackOverflow

/-- 41_control_flow.md R115, R116: the skips on an immediate, each the complement of the other. -/
def Obligations.ImmediateSkipsTestTheRegister : Prop :=
  ∀ (x : Nibble) (nn : Byte),
    (∀ s : State, exec (.skipIfEq x nn) s =
      .next (if State.readReg s x = nn then { s with pc := s.pc + 2#16 } else s)) ∧
    (∀ s : State, exec (.skipIfNEq x nn) s =
      .next (if State.readReg s x = nn then s else { s with pc := s.pc + 2#16 })) ∧
    decode (BitVec.ofNat 16 (0x3000 + x.toNat * 256 + nn.toNat)) = .skipIfEq x nn ∧
    decode (BitVec.ofNat 16 (0x4000 + x.toNat * 256 + nn.toNat)) = .skipIfNEq x nn

/-- 41_control_flow.md R117, R118: the skips on two registers; x = y always, or never, skips; a non-zero low nibble is
`Unsupported`. -/
def Obligations.RegisterSkipsCompareTheRegisters : Prop :=
  ∀ x y : Nibble,
    (∀ s : State, exec (.skipIfEqXY x y) s =
      .next (if State.readReg s x = State.readReg s y then { s with pc := s.pc + 2#16 } else s)) ∧
    (∀ s : State, exec (.skipIfNEqXY x y) s =
      .next (if State.readReg s x = State.readReg s y then s else { s with pc := s.pc + 2#16 })) ∧
    (∀ s : State, exec (.skipIfEqXY x x) s = .next { s with pc := s.pc + 2#16 }) ∧
    (∀ s : State, exec (.skipIfNEqXY x x) s = .next s) ∧
    decode (BitVec.ofNat 16 (0x5000 + x.toNat * 256 + y.toNat * 16)) = .skipIfEqXY x y ∧
    decode (BitVec.ofNat 16 (0x9000 + x.toNat * 256 + y.toNat * 16)) = .skipIfNEqXY x y ∧
    ∀ k : Nat, 0 < k → k < 16 →
      decode (BitVec.ofNat 16 (0x5000 + x.toNat * 256 + y.toNat * 16 + k)) =
        .unsupported (BitVec.ofNat 16 (0x5000 + x.toNat * 256 + y.toNat * 16 + k)) ∧
      decode (BitVec.ofNat 16 (0x9000 + x.toNat * 256 + y.toNat * 16 + k)) =
        .unsupported (BitVec.ofNat 16 (0x9000 + x.toNat * 256 + y.toNat * 16 + k))

/-- 41_control_flow.md R114: a skip whose condition holds leaves the PC at a + 4, whatever the word at a + 2 is, and one
whose condition fails leaves it at a + 2; the new PC is checked by the next fetch only. -/
def Obligations.TakenSkipsPassOverTheNextWord : Prop :=
  (∀ (s : State) (x : Nibble) (nn : Byte),
    FetchesWord s (BitVec.ofNat 16 (0x3000 + x.toNat * 256 + nn.toNat)) →
      if State.readReg s x = nn then StepMovesPcBy 4 s else StepMovesPcBy 2 s) ∧
  (∀ (s : State) (x : Nibble) (nn : Byte),
    FetchesWord s (BitVec.ofNat 16 (0x4000 + x.toNat * 256 + nn.toNat)) →
      if State.readReg s x = nn then StepMovesPcBy 2 s else StepMovesPcBy 4 s) ∧
  (∀ (s : State) (x y : Nibble),
    FetchesWord s (BitVec.ofNat 16 (0x5000 + x.toNat * 256 + y.toNat * 16)) →
      if State.readReg s x = State.readReg s y then StepMovesPcBy 4 s else StepMovesPcBy 2 s) ∧
  (∀ (s : State) (x y : Nibble),
    FetchesWord s (BitVec.ofNat 16 (0x9000 + x.toNat * 256 + y.toNat * 16)) →
      if State.readReg s x = State.readReg s y then StepMovesPcBy 2 s else StepMovesPcBy 4 s) ∧
  ∀ s t : State, s.run = .running → 0xFFC ≤ s.pc.toNat → s.pc.toNat ≤ 0xFFE →
    t = { s with pc := BitVec.ofNat 16 (s.pc.toNat + 4) } →
    step t = .next { t with run := .programEnd, runState := 1#2 }

/-! ## Registers -/

/-- 42_registers.md R130: `SetReg` writes its register, VF like any other, and nothing else. -/
def Obligations.SetRegWritesItsRegisterOnly : Prop :=
  ∀ (x : Nibble) (nn : Byte),
    (∀ s : State, ∃ t, exec (.setReg x nn) s = .next t ∧ State.readReg t x = nn ∧ RegsKept s t [x] ∧
      t = { s with v := t.v }) ∧
    decode (BitVec.ofNat 16 (0x6000 + x.toNat * 256 + nn.toNat)) = .setReg x nn

/-- 42_registers.md R131: `AddToReg` adds modulo 256 and touches no flag: VF changes only as the destination. -/
def Obligations.AddToRegAddsModulo256WithoutAFlag : Prop :=
  ∀ (x : Nibble) (nn : Byte),
    (∀ s : State, ∃ t, exec (.addToReg x nn) s = .next t ∧
      (State.readReg t x).toNat = ((State.readReg s x).toNat + nn.toNat) % 256 ∧ RegsKept s t [x] ∧
      t = { s with v := t.v }) ∧
    decode (BitVec.ofNat 16 (0x7000 + x.toNat * 256 + nn.toNat)) = .addToReg x nn

/-- 42_registers.md R132: `SetIndex` loads I with any 12-bit address and changes nothing else. -/
def Obligations.SetIndexLoadsTheIndexRegister : Prop :=
  ∀ nnn : Addr,
    (∀ s : State, exec (.setIndex nnn) s = .next { s with index := nnn }) ∧
    decode (BitVec.ofNat 16 (0xA000 + nnn.toNat)) = .setIndex nnn

/-! ## Display -/

/-- 43_display.md R140, R162: `ClearScreen` turns every cell off and emits `ClearAll`, `Flush`; nothing else changes. -/
def Obligations.ClearScreenClearsEveryCell : Prop :=
  (∀ s : State, ∃ t, exec .clearScreen s = .next t ∧ (∀ r c, Framebuffer.cell t.fb r c = false) ∧
    t = { s with fb := t.fb, events := s.events ++ [.clearAll, .flush] }) ∧
  ∀ x : Nat, x < 16 → decode (BitVec.ofNat 16 (x * 256 + 0xE0)) = .clearScreen

/-- 43_display.md R142 to R144, R146, R147, R149: every cell of the grid after `Display` is its old value XOR the sprite bit
over it, the sprite anchored modulo the grid, clipped at the right and bottom edges and at the end of memory, most
significant bit leftmost; outside the drawn rectangle the bit is 0. -/
def Obligations.DisplayXorsTheClippedSprite : Prop :=
  ∀ (x y n : Nibble) (s : State), ∃ t, exec (.display x y n) s = .next t ∧
    ∀ r c, Framebuffer.cell t.fb r c = (Framebuffer.cell s.fb r c ^^ displayBit s x y n r c)

/-- 43_display.md R145, R148: VF after `Display` is 1 exactly when some drawn cell was on under a 1 bit, wherever it is, and
0 otherwise; the anchor is the registers' values before VF is reset; no other register changes. -/
def Obligations.DisplaySetsVfToTheCollision : Prop :=
  ∀ (x y n : Nibble) (s : State), ∃ t, exec (.display x y n) s = .next t ∧
    ((∃ r c, Framebuffer.cell s.fb r c = true ∧ displayBit s x y n r c = true) → State.readReg t 0xF#4 = 1#8) ∧
    ((∀ r c, Framebuffer.cell s.fb r c = true → displayBit s x y n r c = false) → State.readReg t 0xF#4 = 0#8) ∧
    RegsKept s t [0xF#4]

/-- 43_display.md R163: one `SetCell` per cell of the drawn rectangle, row-major, with its new value, then `Flush`. -/
def Obligations.DisplayEmitsTheRectangleThenFlush : Prop :=
  ∀ (x y n : Nibble) (s : State), ∃ t, exec (.display x y n) s = .next t ∧
    let c0 := (State.readReg s x).toNat % 64
    let r0 := (State.readReg s y).toNat % 32
    let w := min 8 (64 - c0)
    t.events = s.events ++
      (List.range (rowsDrawn n r0 s.index.toNat * w)).map
        (fun k => .setCell (r0 + k / w) (c0 + k % w) (Framebuffer.cell t.fb (r0 + k / w) (c0 + k % w))) ++
      [.flush]

/-- The blitter's testable properties (43_display.md §2, 90_conflicts.md C10): a sprite at column 60 changes columns 60 to 63
only; a second draw of the same operands at the same anchor restores the grid, and VF after it is 1 exactly when some cell
under a 1 bit was off before the first; an overlap anywhere sets VF. The anchor can differ only for x or y = 15, where the
first draw's VF is the second's operand; 15 is not shut out. -/
def Obligations.DrawingTwiceRestoresTheGrid : Prop :=
  (∀ (x y : Nibble) (s t : State), (State.readReg s x).toNat % 64 = 60 → exec (.display x y 8#4) s = .next t →
    ∀ r c, Framebuffer.cell t.fb r c ≠ Framebuffer.cell s.fb r c → 60 ≤ c ∧ c < 64) ∧
  (∀ (x y n : Nibble) (s t u : State), exec (.display x y n) s = .next t → exec (.display x y n) t = .next u →
    (x = 0xF#4 → (State.readReg t x).toNat % 64 = (State.readReg s x).toNat % 64) →
    (y = 0xF#4 → (State.readReg t y).toNat % 32 = (State.readReg s y).toNat % 32) →
    (∀ r c, Framebuffer.cell u.fb r c = Framebuffer.cell s.fb r c) ∧
    (State.readReg u 0xF#4 = 1#8 ↔ ∃ r c, displayBit s x y n r c = true ∧ Framebuffer.cell s.fb r c = false)) ∧
  ∀ (x y n : Nibble) (s t : State) (r c : Nat), exec (.display x y n) s = .next t →
    Framebuffer.cell s.fb r c = true → displayBit s x y n r c = true → State.readReg t 0xF#4 = 1#8

/-! ## Frames -/

/-- What the register instructions leave alone. -/
def Obligations.RegisterInstructionsFrame : Prop :=
  ∀ (i : Instr) (s t : State), (∃ x nn, i = .setReg x nn) ∨ (∃ x nn, i = .addToReg x nn) ∨ (∃ nnn, i = .setIndex nnn) →
    exec i s = .next t →
    RegsKept s t (regsWritten i) ∧ ((∀ nnn, i ≠ .setIndex nnn) → t.index = s.index) ∧ t.pc = s.pc ∧ t.stack = s.stack ∧
      StatusKept s t ∧ GridKept s t ∧ MemoryKept s t ∧ t.events = s.events

/-- What the control transfers leave alone: V, I, the grid, memory, the event stream and the halt record always; the stack
but for a call and a return; `run`, `run_state` and `abort_reason` but for an abort. -/
def Obligations.ControlTransfersFrame : Prop :=
  ∀ (i : Instr) (s t : State),
    i = .leaveSubr ∨ (∃ nnn, i = .jump nnn) ∨ (∃ nnn, i = .enterSubr nnn) ∨ (∃ x nn, i = .skipIfEq x nn) ∨
      (∃ x nn, i = .skipIfNEq x nn) ∨ (∃ x y, i = .skipIfEqXY x y) ∨ (∃ x y, i = .skipIfNEqXY x y) →
    exec i s = .next t →
    RegsKept s t [] ∧ t.index = s.index ∧ GridKept s t ∧ MemoryKept s t ∧ t.events = s.events ∧
      t.haltWord = s.haltWord ∧ t.haltAddr = s.haltAddr ∧
      (i ≠ .leaveSubr → (∀ nnn, i ≠ .enterSubr nnn) → t.stack = s.stack ∧ StatusKept s t) ∧
      (i = .leaveSubr → s.stack ≠ [] → StatusKept s t) ∧
      ((∃ nnn, i = .enterSubr nnn) → s.stack.length ≠ 16 → StatusKept s t)

/-- What the display instructions leave alone: every register but VF (all of them for `ClearScreen`), I, PC, the stack, the
status outputs and memory; and `Display` leaves every cell outside its rectangle. -/
def Obligations.DisplayInstructionsFrame : Prop :=
  ∀ (i : Instr) (s t : State), i = .clearScreen ∨ (∃ x y n, i = .display x y n) → exec i s = .next t →
    RegsKept s t (regsWritten i) ∧ t.index = s.index ∧ t.pc = s.pc ∧ t.stack = s.stack ∧ StatusKept s t ∧
      MemoryKept s t ∧
      ∀ x y n, i = .display x y n → ∀ r c,
        inSprite n ((State.readReg s y).toNat % 32) ((State.readReg s x).toNat % 64) s.index.toNat r c = false →
        Framebuffer.cell t.fb r c = Framebuffer.cell s.fb r c

/-- What an unsupported word leaves alone. -/
def Obligations.UnsupportedFrame : Prop :=
  ∀ (w : Word) (s t : State), exec (.unsupported w) s = .next t →
    RegsKept s t [] ∧ t.index = s.index ∧ t.pc = s.pc ∧ t.stack = s.stack ∧ t.abortReason = s.abortReason ∧
      GridKept s t ∧ MemoryKept s t ∧ t.events = s.events

/-! ## Whole-machine rules -/

/-- 20_memory.md R47: no instruction writes memory, so no run changes it. -/
def Obligations.NoInstructionWritesMemory : Prop :=
  (∀ (c : Config) (i : Instr) (s t : State c.pcWidth), execWith c i s = .next t → MemoryKept s t) ∧
  (∀ (i : Instr) (s t : State), exec i s = .next t → MemoryKept s t) ∧
  (∀ (k : Nat) (s t : State), Host.Core.run Sys2Proof.core k s = .next t → MemoryKept s t) ∧
  ∀ (c : Config) (k : Nat) (s t : State c.pcWidth), runWith c k s = .next t → MemoryKept s t

/-- A step writes a register, I, the grid or the stack only by an instruction that the state chapter lists as its writer
(10_state.md §1, §3, §5, §7). -/
def Obligations.EachStateHasItsWritersOnly : Prop :=
  ∀ s t : State, step s = .next t →
    (∀ r, State.readReg t r ≠ State.readReg s r → ∃ w, FetchesWord s w ∧ r ∈ regsWritten (decode w)) ∧
    (t.index ≠ s.index → ∃ w nnn, FetchesWord s w ∧ decode w = .setIndex nnn) ∧
    (t.fb ≠ s.fb → ∃ w, FetchesWord s w ∧ (decode w = .clearScreen ∨ ∃ x y n, decode w = .display x y n)) ∧
    (t.stack ≠ s.stack → ∃ w, FetchesWord s w ∧ (decode w = .leaveSubr ∨ ∃ nnn, decode w = .enterSubr nnn))

/-- Every sequence of events a step emits ends with `Flush`, names cells of the grid only, and comes from a display
instruction (43_display.md §3). -/
def Obligations.EveryEventSequenceEndsWithFlush : Prop :=
  ∀ s t : State, step s = .next t → t.events = s.events ∨
    ∃ es w, t.events = s.events ++ es ++ [.flush] ∧ FetchesWord s w ∧
      (decode w = .clearScreen ∨ ∃ x y n, decode w = .display x y n) ∧
      ∀ r c b, SinkEvent.setCell r c b ∈ es → r < 32 ∧ c < 64

/-- The block reads nothing back from the sink: what was emitted before has no influence on a step (43_display.md §3). -/
def Obligations.SinkStreamIsNeverReadBack : Prop :=
  ∀ (s t : State) (before : List SinkEvent), step s = .next t →
    step { s with events := before ++ s.events } = .next { t with events := before ++ t.events }

/-- No step reads the status outputs: changing them changes nothing else (10_state.md §6). -/
def Obligations.StatusOutputsAreNeverRead : Prop :=
  ∀ (s t : State) (rs : BitVec 2) (hw ha : Word) (ar : BitVec 3), step s = .next t →
    ∃ t', step { s with runState := rs, haltWord := hw, haltAddr := ha, abortReason := ar } = .next t' ∧
      t = { t' with runState := t.runState, haltWord := t.haltWord, haltAddr := t.haltAddr, abortReason := t.abortReason }

/-- `Display` is the only reader of I and of the grid: a step that does not fetch one acts the same on the rest of the state
whatever they hold (10_state.md §3, §7). -/
def Obligations.IndexAndGridAreReadByDisplayOnly : Prop :=
  ∀ (s t : State) (j : Addr) (g : Framebuffer), step s = .next t →
    (∀ w, FetchesWord s w → ∀ x y n, decode w ≠ .display x y n) →
    ∃ t', step { s with index := j, fb := g } = .next t' ∧ t = { t' with index := t.index, fb := t.fb }

/-- `PC_WIDTH` cannot be observed from 13 bits on (92_eei_decisions.md D2, 10_state.md §2): two widths reset to the same
numbers, and from a state whose PC and return addresses are in range every run stays in range and gives the same state at
either width. -/
def Obligations.PcWidthIsUnobservableFrom13Bits : Prop :=
  ∀ (c : Config) (w : Nat), 13 ≤ c.pcWidth → 13 ≤ w →
    (PcInRange (State.resetWith c) ∧
      State.resetWith { c with pcWidth := w } = State.atPcWidth w (State.resetWith c)) ∧
    ∀ (k : Nat) (s t : State c.pcWidth), PcInRange s → runWith c k s = .next t →
      PcInRange t ∧ runWith { c with pcWidth := w } k (State.atPcWidth w s) = .next (State.atPcWidth w t)

/-- No host action but a reset changes a released block whose run has ended (40_execution_engine.md §2). That a load, a
release or an initialization failure out of its phase has no effect is the model's choice (log 17, DESIGN CHOICE). -/
def Obligations.EndedBlockIgnoresTheHostUntilReset : Prop :=
  ∀ (c : Config) (b : Block c.pcWidth) (as : List HostAction), b.phase = .released → b.core.run ≠ .running →
    HostAction.assertReset ∉ as → Block.acts c b as = b
end

