-- ==== Sys2Proof/Laws/State.lean ====
section
/-! SUPPORT. One lemma per field per update of State, each true by rfl. -/

namespace Sys2Proof.Machine

variable {pw : Nat} (s : State pw)

/-! ### `writeReg` -/

@[simp] theorem State.writeReg_v (x : Nibble) (b : Byte) : (State.writeReg s x b).v = s.v.set x.toNat b x.isLt := rfl
@[simp] theorem State.writeReg_index (x : Nibble) (b : Byte) : (State.writeReg s x b).index = s.index := rfl
@[simp] theorem State.writeReg_pc (x : Nibble) (b : Byte) : (State.writeReg s x b).pc = s.pc := rfl
@[simp] theorem State.writeReg_stack (x : Nibble) (b : Byte) : (State.writeReg s x b).stack = s.stack := rfl
@[simp] theorem State.writeReg_run (x : Nibble) (b : Byte) : (State.writeReg s x b).run = s.run := rfl
@[simp] theorem State.writeReg_runState (x : Nibble) (b : Byte) : (State.writeReg s x b).runState = s.runState := rfl
@[simp] theorem State.writeReg_haltWord (x : Nibble) (b : Byte) : (State.writeReg s x b).haltWord = s.haltWord := rfl
@[simp] theorem State.writeReg_haltAddr (x : Nibble) (b : Byte) : (State.writeReg s x b).haltAddr = s.haltAddr := rfl
@[simp] theorem State.writeReg_abortReason (x : Nibble) (b : Byte) : (State.writeReg s x b).abortReason = s.abortReason := rfl
@[simp] theorem State.writeReg_fb (x : Nibble) (b : Byte) : (State.writeReg s x b).fb = s.fb := rfl
@[simp] theorem State.writeReg_mem (x : Nibble) (b : Byte) : (State.writeReg s x b).mem = s.mem := rfl
@[simp] theorem State.writeReg_events (x : Nibble) (b : Byte) : (State.writeReg s x b).events = s.events := rfl

/-! ### `setIndex` -/

@[simp] theorem State.setIndex_v (nnn : Addr) : (State.setIndex s nnn).v = s.v := rfl
@[simp] theorem State.setIndex_index (nnn : Addr) : (State.setIndex s nnn).index = nnn := rfl
@[simp] theorem State.setIndex_pc (nnn : Addr) : (State.setIndex s nnn).pc = s.pc := rfl
@[simp] theorem State.setIndex_stack (nnn : Addr) : (State.setIndex s nnn).stack = s.stack := rfl
@[simp] theorem State.setIndex_run (nnn : Addr) : (State.setIndex s nnn).run = s.run := rfl
@[simp] theorem State.setIndex_runState (nnn : Addr) : (State.setIndex s nnn).runState = s.runState := rfl
@[simp] theorem State.setIndex_haltWord (nnn : Addr) : (State.setIndex s nnn).haltWord = s.haltWord := rfl
@[simp] theorem State.setIndex_haltAddr (nnn : Addr) : (State.setIndex s nnn).haltAddr = s.haltAddr := rfl
@[simp] theorem State.setIndex_abortReason (nnn : Addr) : (State.setIndex s nnn).abortReason = s.abortReason := rfl
@[simp] theorem State.setIndex_fb (nnn : Addr) : (State.setIndex s nnn).fb = s.fb := rfl
@[simp] theorem State.setIndex_mem (nnn : Addr) : (State.setIndex s nnn).mem = s.mem := rfl
@[simp] theorem State.setIndex_events (nnn : Addr) : (State.setIndex s nnn).events = s.events := rfl
@[simp] theorem State.setIndex_readReg (nnn : Addr) (y : Nibble) : State.readReg (State.setIndex s nnn) y = State.readReg s y := rfl

/-! ### `setPc` -/

@[simp] theorem State.setPc_v (a : BitVec pw) : (State.setPc s a).v = s.v := rfl
@[simp] theorem State.setPc_index (a : BitVec pw) : (State.setPc s a).index = s.index := rfl
@[simp] theorem State.setPc_pc (a : BitVec pw) : (State.setPc s a).pc = a := rfl
@[simp] theorem State.setPc_stack (a : BitVec pw) : (State.setPc s a).stack = s.stack := rfl
@[simp] theorem State.setPc_run (a : BitVec pw) : (State.setPc s a).run = s.run := rfl
@[simp] theorem State.setPc_runState (a : BitVec pw) : (State.setPc s a).runState = s.runState := rfl
@[simp] theorem State.setPc_haltWord (a : BitVec pw) : (State.setPc s a).haltWord = s.haltWord := rfl
@[simp] theorem State.setPc_haltAddr (a : BitVec pw) : (State.setPc s a).haltAddr = s.haltAddr := rfl
@[simp] theorem State.setPc_abortReason (a : BitVec pw) : (State.setPc s a).abortReason = s.abortReason := rfl
@[simp] theorem State.setPc_fb (a : BitVec pw) : (State.setPc s a).fb = s.fb := rfl
@[simp] theorem State.setPc_mem (a : BitVec pw) : (State.setPc s a).mem = s.mem := rfl
@[simp] theorem State.setPc_events (a : BitVec pw) : (State.setPc s a).events = s.events := rfl
@[simp] theorem State.setPc_readReg (a : BitVec pw) (y : Nibble) : State.readReg (State.setPc s a) y = State.readReg s y := rfl

/-! ### `advance` -/

@[simp] theorem State.advance_v : (State.advance s).v = s.v := rfl
@[simp] theorem State.advance_index : (State.advance s).index = s.index := rfl
@[simp] theorem State.advance_pc : (State.advance s).pc = s.pc + 2#pw := rfl
@[simp] theorem State.advance_stack : (State.advance s).stack = s.stack := rfl
@[simp] theorem State.advance_run : (State.advance s).run = s.run := rfl
@[simp] theorem State.advance_runState : (State.advance s).runState = s.runState := rfl
@[simp] theorem State.advance_haltWord : (State.advance s).haltWord = s.haltWord := rfl
@[simp] theorem State.advance_haltAddr : (State.advance s).haltAddr = s.haltAddr := rfl
@[simp] theorem State.advance_abortReason : (State.advance s).abortReason = s.abortReason := rfl
@[simp] theorem State.advance_fb : (State.advance s).fb = s.fb := rfl
@[simp] theorem State.advance_mem : (State.advance s).mem = s.mem := rfl
@[simp] theorem State.advance_events : (State.advance s).events = s.events := rfl
@[simp] theorem State.advance_readReg (y : Nibble) : State.readReg (State.advance s) y = State.readReg s y := rfl

/-! ### `push` -/

@[simp] theorem State.push_v (a : BitVec pw) : (State.push s a).v = s.v := rfl
@[simp] theorem State.push_index (a : BitVec pw) : (State.push s a).index = s.index := rfl
@[simp] theorem State.push_pc (a : BitVec pw) : (State.push s a).pc = s.pc := rfl
@[simp] theorem State.push_stack (a : BitVec pw) : (State.push s a).stack = s.stack ++ [a] := rfl
@[simp] theorem State.push_run (a : BitVec pw) : (State.push s a).run = s.run := rfl
@[simp] theorem State.push_runState (a : BitVec pw) : (State.push s a).runState = s.runState := rfl
@[simp] theorem State.push_haltWord (a : BitVec pw) : (State.push s a).haltWord = s.haltWord := rfl
@[simp] theorem State.push_haltAddr (a : BitVec pw) : (State.push s a).haltAddr = s.haltAddr := rfl
@[simp] theorem State.push_abortReason (a : BitVec pw) : (State.push s a).abortReason = s.abortReason := rfl
@[simp] theorem State.push_fb (a : BitVec pw) : (State.push s a).fb = s.fb := rfl
@[simp] theorem State.push_mem (a : BitVec pw) : (State.push s a).mem = s.mem := rfl
@[simp] theorem State.push_events (a : BitVec pw) : (State.push s a).events = s.events := rfl
@[simp] theorem State.push_readReg (a : BitVec pw) (y : Nibble) : State.readReg (State.push s a) y = State.readReg s y := rfl

/-! ### `dropTop` -/

@[simp] theorem State.dropTop_v : (State.dropTop s).v = s.v := rfl
@[simp] theorem State.dropTop_index : (State.dropTop s).index = s.index := rfl
@[simp] theorem State.dropTop_pc : (State.dropTop s).pc = s.pc := rfl
@[simp] theorem State.dropTop_stack : (State.dropTop s).stack = s.stack.dropLast := rfl
@[simp] theorem State.dropTop_run : (State.dropTop s).run = s.run := rfl
@[simp] theorem State.dropTop_runState : (State.dropTop s).runState = s.runState := rfl
@[simp] theorem State.dropTop_haltWord : (State.dropTop s).haltWord = s.haltWord := rfl
@[simp] theorem State.dropTop_haltAddr : (State.dropTop s).haltAddr = s.haltAddr := rfl
@[simp] theorem State.dropTop_abortReason : (State.dropTop s).abortReason = s.abortReason := rfl
@[simp] theorem State.dropTop_fb : (State.dropTop s).fb = s.fb := rfl
@[simp] theorem State.dropTop_mem : (State.dropTop s).mem = s.mem := rfl
@[simp] theorem State.dropTop_events : (State.dropTop s).events = s.events := rfl
@[simp] theorem State.dropTop_readReg (y : Nibble) : State.readReg (State.dropTop s) y = State.readReg s y := rfl

/-! ### `setFb` -/

@[simp] theorem State.setFb_v (g : Framebuffer) : (State.setFb s g).v = s.v := rfl
@[simp] theorem State.setFb_index (g : Framebuffer) : (State.setFb s g).index = s.index := rfl
@[simp] theorem State.setFb_pc (g : Framebuffer) : (State.setFb s g).pc = s.pc := rfl
@[simp] theorem State.setFb_stack (g : Framebuffer) : (State.setFb s g).stack = s.stack := rfl
@[simp] theorem State.setFb_run (g : Framebuffer) : (State.setFb s g).run = s.run := rfl
@[simp] theorem State.setFb_runState (g : Framebuffer) : (State.setFb s g).runState = s.runState := rfl
@[simp] theorem State.setFb_haltWord (g : Framebuffer) : (State.setFb s g).haltWord = s.haltWord := rfl
@[simp] theorem State.setFb_haltAddr (g : Framebuffer) : (State.setFb s g).haltAddr = s.haltAddr := rfl
@[simp] theorem State.setFb_abortReason (g : Framebuffer) : (State.setFb s g).abortReason = s.abortReason := rfl
@[simp] theorem State.setFb_fb (g : Framebuffer) : (State.setFb s g).fb = g := rfl
@[simp] theorem State.setFb_mem (g : Framebuffer) : (State.setFb s g).mem = s.mem := rfl
@[simp] theorem State.setFb_events (g : Framebuffer) : (State.setFb s g).events = s.events := rfl
@[simp] theorem State.setFb_readReg (g : Framebuffer) (y : Nibble) : State.readReg (State.setFb s g) y = State.readReg s y := rfl

/-! ### `emit` -/

@[simp] theorem State.emit_v (es : List SinkEvent) : (State.emit s es).v = s.v := rfl
@[simp] theorem State.emit_index (es : List SinkEvent) : (State.emit s es).index = s.index := rfl
@[simp] theorem State.emit_pc (es : List SinkEvent) : (State.emit s es).pc = s.pc := rfl
@[simp] theorem State.emit_stack (es : List SinkEvent) : (State.emit s es).stack = s.stack := rfl
@[simp] theorem State.emit_run (es : List SinkEvent) : (State.emit s es).run = s.run := rfl
@[simp] theorem State.emit_runState (es : List SinkEvent) : (State.emit s es).runState = s.runState := rfl
@[simp] theorem State.emit_haltWord (es : List SinkEvent) : (State.emit s es).haltWord = s.haltWord := rfl
@[simp] theorem State.emit_haltAddr (es : List SinkEvent) : (State.emit s es).haltAddr = s.haltAddr := rfl
@[simp] theorem State.emit_abortReason (es : List SinkEvent) : (State.emit s es).abortReason = s.abortReason := rfl
@[simp] theorem State.emit_fb (es : List SinkEvent) : (State.emit s es).fb = s.fb := rfl
@[simp] theorem State.emit_mem (es : List SinkEvent) : (State.emit s es).mem = s.mem := rfl
@[simp] theorem State.emit_events (es : List SinkEvent) : (State.emit s es).events = s.events ++ es := rfl
@[simp] theorem State.emit_readReg (es : List SinkEvent) (y : Nibble) : State.readReg (State.emit s es) y = State.readReg s y := rfl

/-! ### `writeVF` -/

@[simp] theorem State.writeVF_v (f : Bool) : (State.writeVF s f).v = s.v.set 15 (flagByte f) := rfl
@[simp] theorem State.writeVF_index (f : Bool) : (State.writeVF s f).index = s.index := rfl
@[simp] theorem State.writeVF_pc (f : Bool) : (State.writeVF s f).pc = s.pc := rfl
@[simp] theorem State.writeVF_stack (f : Bool) : (State.writeVF s f).stack = s.stack := rfl
@[simp] theorem State.writeVF_run (f : Bool) : (State.writeVF s f).run = s.run := rfl
@[simp] theorem State.writeVF_runState (f : Bool) : (State.writeVF s f).runState = s.runState := rfl
@[simp] theorem State.writeVF_haltWord (f : Bool) : (State.writeVF s f).haltWord = s.haltWord := rfl
@[simp] theorem State.writeVF_haltAddr (f : Bool) : (State.writeVF s f).haltAddr = s.haltAddr := rfl
@[simp] theorem State.writeVF_abortReason (f : Bool) : (State.writeVF s f).abortReason = s.abortReason := rfl
@[simp] theorem State.writeVF_fb (f : Bool) : (State.writeVF s f).fb = s.fb := rfl
@[simp] theorem State.writeVF_mem (f : Bool) : (State.writeVF s f).mem = s.mem := rfl
@[simp] theorem State.writeVF_events (f : Bool) : (State.writeVF s f).events = s.events := rfl

/-! ### `atPcWidth` -/

@[simp] theorem State.atPcWidth_v (w : Nat) : (State.atPcWidth w s).v = s.v := rfl
@[simp] theorem State.atPcWidth_index (w : Nat) : (State.atPcWidth w s).index = s.index := rfl
@[simp] theorem State.atPcWidth_pc (w : Nat) : (State.atPcWidth w s).pc = s.pc.setWidth w := rfl
@[simp] theorem State.atPcWidth_stack (w : Nat) : (State.atPcWidth w s).stack = s.stack.map fun a => a.setWidth w := rfl
@[simp] theorem State.atPcWidth_run (w : Nat) : (State.atPcWidth w s).run = s.run := rfl
@[simp] theorem State.atPcWidth_runState (w : Nat) : (State.atPcWidth w s).runState = s.runState := rfl
@[simp] theorem State.atPcWidth_haltWord (w : Nat) : (State.atPcWidth w s).haltWord = s.haltWord := rfl
@[simp] theorem State.atPcWidth_haltAddr (w : Nat) : (State.atPcWidth w s).haltAddr = s.haltAddr := rfl
@[simp] theorem State.atPcWidth_abortReason (w : Nat) : (State.atPcWidth w s).abortReason = s.abortReason := rfl
@[simp] theorem State.atPcWidth_fb (w : Nat) : (State.atPcWidth w s).fb = s.fb := rfl
@[simp] theorem State.atPcWidth_mem (w : Nat) : (State.atPcWidth w s).mem = s.mem := rfl
@[simp] theorem State.atPcWidth_events (w : Nat) : (State.atPcWidth w s).events = s.events := rfl
@[simp] theorem State.atPcWidth_readReg (w : Nat) (y : Nibble) : State.readReg (State.atPcWidth w s) y = State.readReg s y := rfl

/-! ### `haltProgramEnd` -/

@[simp] theorem State.haltProgramEnd_v : (State.haltProgramEnd s).v = s.v := rfl
@[simp] theorem State.haltProgramEnd_index : (State.haltProgramEnd s).index = s.index := rfl
@[simp] theorem State.haltProgramEnd_pc : (State.haltProgramEnd s).pc = s.pc := rfl
@[simp] theorem State.haltProgramEnd_stack : (State.haltProgramEnd s).stack = s.stack := rfl
@[simp] theorem State.haltProgramEnd_run : (State.haltProgramEnd s).run = .programEnd := rfl
@[simp] theorem State.haltProgramEnd_runState : (State.haltProgramEnd s).runState = 1#2 := rfl
@[simp] theorem State.haltProgramEnd_haltWord : (State.haltProgramEnd s).haltWord = s.haltWord := rfl
@[simp] theorem State.haltProgramEnd_haltAddr : (State.haltProgramEnd s).haltAddr = s.haltAddr := rfl
@[simp] theorem State.haltProgramEnd_abortReason : (State.haltProgramEnd s).abortReason = s.abortReason := rfl
@[simp] theorem State.haltProgramEnd_fb : (State.haltProgramEnd s).fb = s.fb := rfl
@[simp] theorem State.haltProgramEnd_mem : (State.haltProgramEnd s).mem = s.mem := rfl
@[simp] theorem State.haltProgramEnd_events : (State.haltProgramEnd s).events = s.events := rfl
@[simp] theorem State.haltProgramEnd_readReg (y : Nibble) : State.readReg (State.haltProgramEnd s) y = State.readReg s y := rfl

/-! ### `haltUnsupported` -/

@[simp] theorem State.haltUnsupported_v (w : Word) : (State.haltUnsupported s w).v = s.v := rfl
@[simp] theorem State.haltUnsupported_index (w : Word) : (State.haltUnsupported s w).index = s.index := rfl
@[simp] theorem State.haltUnsupported_pc (w : Word) : (State.haltUnsupported s w).pc = s.pc := rfl
@[simp] theorem State.haltUnsupported_stack (w : Word) : (State.haltUnsupported s w).stack = s.stack := rfl
@[simp] theorem State.haltUnsupported_run (w : Word) : (State.haltUnsupported s w).run = .haltedUnsupported := rfl
@[simp] theorem State.haltUnsupported_runState (w : Word) : (State.haltUnsupported s w).runState = 2#2 := rfl
@[simp] theorem State.haltUnsupported_haltWord (w : Word) : (State.haltUnsupported s w).haltWord = w := rfl
@[simp] theorem State.haltUnsupported_haltAddr (w : Word) : (State.haltUnsupported s w).haltAddr = (s.pc - 2#pw).setWidth 16 := rfl
@[simp] theorem State.haltUnsupported_abortReason (w : Word) : (State.haltUnsupported s w).abortReason = s.abortReason := rfl
@[simp] theorem State.haltUnsupported_fb (w : Word) : (State.haltUnsupported s w).fb = s.fb := rfl
@[simp] theorem State.haltUnsupported_mem (w : Word) : (State.haltUnsupported s w).mem = s.mem := rfl
@[simp] theorem State.haltUnsupported_events (w : Word) : (State.haltUnsupported s w).events = s.events := rfl
@[simp] theorem State.haltUnsupported_readReg (w : Word) (y : Nibble) : State.readReg (State.haltUnsupported s w) y = State.readReg s y := rfl

/-! ### `raiseAbort` -/

@[simp] theorem State.raiseAbort_v (r : AbortReason) : (State.raiseAbort s r).v = s.v := rfl
@[simp] theorem State.raiseAbort_index (r : AbortReason) : (State.raiseAbort s r).index = s.index := rfl
@[simp] theorem State.raiseAbort_pc (r : AbortReason) : (State.raiseAbort s r).pc = s.pc := rfl
@[simp] theorem State.raiseAbort_stack (r : AbortReason) : (State.raiseAbort s r).stack = s.stack := rfl
@[simp] theorem State.raiseAbort_run (r : AbortReason) : (State.raiseAbort s r).run = .aborted r := rfl
@[simp] theorem State.raiseAbort_runState (r : AbortReason) : (State.raiseAbort s r).runState = 3#2 := rfl
@[simp] theorem State.raiseAbort_haltWord (r : AbortReason) : (State.raiseAbort s r).haltWord = s.haltWord := rfl
@[simp] theorem State.raiseAbort_haltAddr (r : AbortReason) : (State.raiseAbort s r).haltAddr = s.haltAddr := rfl
@[simp] theorem State.raiseAbort_abortReason (r : AbortReason) : (State.raiseAbort s r).abortReason = AbortReason.code r := rfl
@[simp] theorem State.raiseAbort_fb (r : AbortReason) : (State.raiseAbort s r).fb = s.fb := rfl
@[simp] theorem State.raiseAbort_mem (r : AbortReason) : (State.raiseAbort s r).mem = s.mem := rfl
@[simp] theorem State.raiseAbort_events (r : AbortReason) : (State.raiseAbort s r).events = s.events := rfl
@[simp] theorem State.raiseAbort_readReg (r : AbortReason) (y : Nibble) : State.readReg (State.raiseAbort s r) y = State.readReg s y := rfl

end Sys2Proof.Machine
end

