-- ==== Sys2Proof/Laws/Grid.lean ====
section
/-! SUPPORT. Reading after writing a framebuffer cell. -/

namespace Sys2Proof.Machine

theorem Framebuffer.cell_outside (fb : Framebuffer) {r c : Nat} (h : ¬ (r < 32 ∧ c < 64)) :
    Framebuffer.cell fb r c = false := by
  simp [Framebuffer.cell, h]

theorem Framebuffer.cell_setCell (fb : Framebuffer) {r c : Nat} (b : Bool) (h : r < 32 ∧ c < 64) (r' c' : Nat) :
    Framebuffer.cell (Framebuffer.setCell fb r c b) r' c' =
      if r' = r ∧ c' = c then b else Framebuffer.cell fb r' c' := by
  by_cases h' : r' < 32 ∧ c' < 64
  · unfold Framebuffer.cell Framebuffer.setCell
    rw [dif_pos h', dif_pos h, dif_pos h']
    by_cases hr : r = r'
    · subst hr
      by_cases hc : c = c'
      · subst hc; simp
      · simp [hc, show ¬ c' = c from fun e => hc e.symm]
    · simp [hr, show ¬ r' = r from fun e => hr e.symm]
  · rw [Framebuffer.cell_outside _ h', Framebuffer.cell_outside _ h', if_neg]
    rintro ⟨rfl, rfl⟩
    exact h' h

@[simp] theorem Framebuffer.cell_blank (r c : Nat) : Framebuffer.cell Framebuffer.blank r c = false := by
  unfold Framebuffer.cell Framebuffer.blank
  split
  · simp
  · rfl

/-- The grid is known by its cells. -/
theorem Framebuffer.ext {g g' : Framebuffer} (h : ∀ r c, r < 32 → c < 64 → Framebuffer.cell g r c = Framebuffer.cell g' r c) :
    g = g' := by
  apply Vector.ext
  intro r hr
  apply Vector.ext
  intro c hc
  simpa [Framebuffer.cell, hr, hc] using h r c hr hc

end Sys2Proof.Machine
end

