-- ==== Sys2Proof/Laws/Memory.lean ====
section
/-! SUPPORT. Memory: reads after writes, and the canonical form that every operation keeps. -/

namespace Sys2Proof.Machine

theorem Memory.wfFrom_cons {lo k : Nat} {b : Byte} {m : Memory} :
    Memory.wfFrom lo ((k, b) :: m) = true ↔
      lo ≤ k ∧ k < memSize ∧ b ≠ memFill ∧ Memory.wfFrom (k + 1) m = true := by
  simp [Memory.wfFrom, and_assoc]

theorem Memory.wfFrom_mono {lo lo' : Nat} {m : Memory} (h : lo' ≤ lo) (hm : Memory.wfFrom lo m = true) :
    Memory.wfFrom lo' m = true := by
  cases m with
  | nil => rfl
  | cons e m =>
    obtain ⟨k, b⟩ := e
    rw [Memory.wfFrom_cons] at hm ⊢
    exact ⟨by omega, hm.2⟩

/-- Below its first listed address, memory reads as the fill. -/
theorem Memory.byte_below {lo a : Nat} {m : Memory} (hm : Memory.wfFrom lo m = true) (h : a < lo) :
    Memory.byte m a = memFill := by
  induction m generalizing lo with
  | nil => rfl
  | cons e m ih =>
    obtain ⟨k, b⟩ := e
    rw [Memory.wfFrom_cons] at hm
    simp only [Memory.byte, if_neg (show k ≠ a by omega)]
    exact ih hm.2.2.2 (by omega)

/-- At and above `memSize` memory reads as the fill. -/
theorem Memory.byte_above {lo a : Nat} {m : Memory} (hm : Memory.wfFrom lo m = true) (h : memSize ≤ a) :
    Memory.byte m a = memFill := by
  induction m generalizing lo with
  | nil => rfl
  | cons e m ih =>
    obtain ⟨k, b⟩ := e
    rw [Memory.wfFrom_cons] at hm
    simp only [Memory.byte, if_neg (show k ≠ a by omega)]
    exact ih hm.2.2.2

theorem Memory.byte_put {lo a : Nat} {m : Memory} (hm : Memory.wfFrom lo m = true) (b : Byte) (a' : Nat) :
    Memory.byte (Memory.put m a b) a' = if a' = a then b else Memory.byte m a' := by
  induction m generalizing lo with
  | nil =>
    unfold Memory.put
    split_ifs with hb h h
    · simp [Memory.byte, hb]
    · rfl
    · simp [Memory.byte, h]
    · simp [Memory.byte, show ¬ a = a' from fun e => h e.symm]
  | cons e m ih =>
    obtain ⟨k, d⟩ := e
    rw [Memory.wfFrom_cons] at hm
    have hrest : a' < k + 1 → Memory.byte m a' = memFill := Memory.byte_below hm.2.2.2
    have hih := ih hm.2.2.2
    unfold Memory.put
    by_cases h1 : a < k
    · rw [if_pos h1]
      by_cases hb : b = memFill
      · rw [if_pos hb]
        by_cases h : a' = a
        · simp [h, hb, Memory.byte, show ¬ k = a by omega, Memory.byte_below hm.2.2.2 (show a < k + 1 by omega)]
        · simp [h]
      · rw [if_neg hb]
        by_cases h : a' = a
        · simp [h, Memory.byte]
        · simp [h, Memory.byte, show ¬ a = a' from fun e => h e.symm]
    · rw [if_neg h1]
      by_cases h2 : a = k
      · rw [if_pos h2]
        by_cases hb : b = memFill
        · rw [if_pos hb]
          by_cases h : a' = a
          · rw [if_pos h, hb]; exact hrest (by omega)
          · simp [h, Memory.byte, show ¬ k = a' from fun e => h (e.symm.trans h2.symm)]
        · rw [if_neg hb]
          by_cases h : a' = a
          · simp [h, Memory.byte]
          · simp [h, Memory.byte, show ¬ a = a' from fun e => h e.symm, show ¬ k = a' from fun e => h (e.symm.trans h2.symm)]
      · rw [if_neg h2]
        by_cases h : k = a'
        · simp [Memory.byte, h, show ¬ a' = a from fun e => h2 (e.symm.trans h.symm)]
        · simp [Memory.byte, h, hih]

theorem Memory.put_wfFrom {lo a : Nat} {m : Memory} (hm : Memory.wfFrom lo m = true) (hlo : lo ≤ a) (ha : a < memSize)
    (b : Byte) : Memory.wfFrom lo (Memory.put m a b) = true := by
  induction m generalizing lo with
  | nil => by_cases hb : b = memFill <;> simp_all [Memory.put, Memory.wfFrom]
  | cons e m ih =>
    obtain ⟨k, d⟩ := e
    have hm' := hm
    rw [Memory.wfFrom_cons] at hm
    unfold Memory.put
    split_ifs with h1 h2 h3 h4
    · exact hm'
    · exact Memory.wfFrom_cons.2 ⟨hlo, ha, h2, Memory.wfFrom_cons.2 ⟨by omega, hm.2⟩⟩
    · exact Memory.wfFrom_mono (by omega) hm.2.2.2
    · exact Memory.wfFrom_cons.2 ⟨hlo, ha, h4, h3 ▸ hm.2.2.2⟩
    · exact Memory.wfFrom_cons.2 ⟨hm.1, hm.2.1, hm.2.2.1, ih hm.2.2.2 (by omega)⟩

theorem Memory.put_wf {a : Nat} {m : Memory} (hm : Memory.wf m = true) (ha : a < memSize) (b : Byte) :
    Memory.wf (Memory.put m a b) = true :=
  Memory.put_wfFrom hm (Nat.zero_le a) ha b

theorem Memory.putAll_wf {a : Nat} {m : Memory} {bs : List Byte} (hm : Memory.wf m = true)
    (h : a + bs.length ≤ memSize) : Memory.wf (Memory.putAll m a bs) = true := by
  induction bs generalizing m a with
  | nil => exact hm
  | cons b bs ih =>
    simp only [List.length_cons] at h
    exact ih (Memory.put_wf hm (by omega) b) (by omega)

theorem Memory.byte_putAll {a : Nat} {m : Memory} {bs : List Byte} (hm : Memory.wf m = true)
    (h : a + bs.length ≤ memSize) (a' : Nat) :
    Memory.byte (Memory.putAll m a bs) a' = if a ≤ a' then bs.getD (a' - a) (Memory.byte m a') else Memory.byte m a' := by
  induction bs generalizing m a with
  | nil => simp [Memory.putAll]
  | cons b bs ih =>
    simp only [List.length_cons] at h
    simp only [Memory.putAll]
    rw [ih (Memory.put_wf hm (by omega) b) (by omega), Memory.byte_put hm]
    rcases Nat.lt_trichotomy a' a with hlt | heq | hgt
    · simp [show ¬ a + 1 ≤ a' by omega, show ¬ a ≤ a' by omega, show a' ≠ a by omega]
    · subst heq; simp
    · obtain ⟨d, rfl⟩ : ∃ d, a' = a + 1 + d := ⟨a' - (a + 1), by omega⟩
      simp [show a + 1 + d - a = d + 1 by omega, show a ≤ a + 1 + d by omega, show a + 1 + d ≠ a by omega]

/-- The canonical form names each memory once. -/
theorem Memory.ext {lo : Nat} {m m' : Memory} (hm : Memory.wfFrom lo m = true) (hm' : Memory.wfFrom lo m' = true)
    (h : ∀ a, Memory.byte m a = Memory.byte m' a) : m = m' := by
  induction m generalizing lo m' with
  | nil =>
    cases m' with
    | nil => rfl
    | cons e m' =>
      obtain ⟨k, b⟩ := e
      rw [Memory.wfFrom_cons] at hm'
      exact absurd (by simpa [Memory.byte] using (h k).symm) hm'.2.2.1
  | cons e m ih =>
    obtain ⟨k, b⟩ := e
    have hcons := hm
    rw [Memory.wfFrom_cons] at hm
    cases m' with
    | nil => exact absurd (by simpa [Memory.byte] using h k) hm.2.2.1
    | cons e' m' =>
      obtain ⟨k', b'⟩ := e'
      have hcons' := hm'
      rw [Memory.wfFrom_cons] at hm'
      rcases Nat.lt_trichotomy k k' with hlt | heq | hgt
      · have := h k
        rw [Memory.byte_below (Memory.wfFrom_cons.2 ⟨Nat.le_refl k', hm'.2⟩) hlt] at this
        exact absurd (by simpa [Memory.byte] using this) hm.2.2.1
      · subst heq
        have hb : b = b' := by simpa [Memory.byte] using h k
        subst hb
        have : m = m' := by
          refine ih hm.2.2.2 hm'.2.2.2 fun a => ?_
          by_cases ha : k = a
          · subst ha
            rw [Memory.byte_below hm.2.2.2 (Nat.lt_succ_self k), Memory.byte_below hm'.2.2.2 (Nat.lt_succ_self k)]
          · simpa [Memory.byte, ha] using h a
        rw [this]
      · have := h k'
        rw [Memory.byte_below (Memory.wfFrom_cons.2 ⟨Nat.le_refl k, hm.2⟩) hgt] at this
        exact absurd (by simpa [Memory.byte] using this.symm) hm'.2.2.1

/-! ### Reads -/

theorem Memory.read_ok {m : Memory} {a : Nat} (h : a < memSize) : Memory.read m a = .ok (Memory.byte m a) := by
  simp [Memory.read, h]

theorem Memory.fetch16_ok {m : Memory} {a : Nat} (h : a + 1 < memSize) :
    Memory.fetch16 m a = .ok (bigEndian (Memory.byte m a) (Memory.byte m (a + 1))) := by
  simp [Memory.fetch16, Memory.read_ok (show a < memSize by omega), Memory.read_ok h]

theorem bigEndian_toNat (hi lo : Byte) : (bigEndian hi lo).toNat = hi.toNat * 256 + lo.toNat := by
  simp only [bigEndian, BitVec.toNat_append]
  rw [← Nat.shiftLeft_add_eq_or_of_lt lo.isLt, Nat.shiftLeft_eq]

/-! ### The drawn memory -/

theorem Memory.ofBytes_from (f : Nat → Byte) (lo n : Nat) (h : lo + n ≤ memSize) :
    Memory.wfFrom lo ((List.range' lo n).filterMap fun a => if f a = memFill then none else some (a, f a)) = true ∧
    ∀ a, Memory.byte ((List.range' lo n).filterMap fun a => if f a = memFill then none else some (a, f a)) a =
      if lo ≤ a ∧ a < lo + n then f a else memFill := by
  induction n generalizing lo with
  | zero => exact ⟨rfl, fun a => by simp [Memory.byte, show ¬ (lo ≤ a ∧ a < lo) by omega]⟩
  | succ n ih =>
    obtain ⟨hw, hb⟩ := ih (lo + 1) (by omega)
    rw [List.range'_succ]
    by_cases hf : f lo = memFill
    · rw [List.filterMap_cons_none (by simp [hf])]
      refine ⟨Memory.wfFrom_mono (Nat.le_succ lo) hw, fun a => ?_⟩
      rw [hb]
      by_cases ha : a = lo
      · subst ha; simp [hf]
      · congr 1; simp only [eq_iff_iff]; omega
    · rw [List.filterMap_cons_some (b := (lo, f lo)) (by simp [hf])]
      refine ⟨Memory.wfFrom_cons.2 ⟨Nat.le_refl lo, by omega, hf, hw⟩, fun a => ?_⟩
      simp only [Memory.byte, hb]
      by_cases ha : lo = a
      · subst ha; simp
      · rw [if_neg ha]; congr 1; simp only [eq_iff_iff]; omega

theorem Memory.ofBytes_wf (f : Nat → Byte) : Memory.wf (Memory.ofBytes f) = true := by
  rw [Memory.wf, Memory.ofBytes, List.range_eq_range']
  exact (Memory.ofBytes_from f 0 memSize (by simp)).1

theorem Memory.byte_ofBytes (f : Nat → Byte) {a : Nat} (h : a < memSize) : Memory.byte (Memory.ofBytes f) a = f a := by
  have := (Memory.ofBytes_from f 0 memSize (by simp)).2 a
  simpa [Memory.ofBytes, List.range_eq_range', show a < 4096 from h] using this

theorem reset_mem_wf : Memory.wf State.reset.mem = true := rfl

theorem resetMem_wf (c : Config) : Memory.wf (resetMem c) = true := by
  unfold resetMem
  split
  · rfl
  · exact Memory.ofBytes_wf drawnByte

end Sys2Proof.Machine
end

