-- ==== Sys2Proof/Laws/Registers.lean ====
section
/-! SUPPORT. Reading after writing a register. -/

namespace Sys2Proof.Machine

theorem State.readReg_writeReg {pw : Nat} (s : State pw) (x y : Nibble) (b : Byte) :
    State.readReg (State.writeReg s x b) y = if y = x then b else State.readReg s y := by
  by_cases h : y = x
  · subst h; simp [State.readReg]
  · have hn : x.toNat ≠ y.toNat := fun he => h (BitVec.eq_of_toNat_eq he.symm)
    simp [State.readReg, h, hn]

@[simp] theorem State.readReg_writeReg_same {pw : Nat} (s : State pw) (x : Nibble) (b : Byte) :
    State.readReg (State.writeReg s x b) x = b := by
  simp [State.readReg_writeReg]

theorem State.readReg_writeReg_ne {pw : Nat} (s : State pw) {x y : Nibble} (b : Byte) (h : y ≠ x) :
    State.readReg (State.writeReg s x b) y = State.readReg s y := by
  simp [State.readReg_writeReg, h]

theorem State.readReg_writeVF {pw : Nat} (s : State pw) (y : Nibble) (f : Bool) :
    State.readReg (State.writeVF s f) y = if y = regVF then flagByte f else State.readReg s y :=
  State.readReg_writeReg s regVF y (flagByte f)

/-- The register file is known by its reads. -/
theorem State.v_ext {pw : Nat} {s t : State pw} (h : ∀ x, State.readReg s x = State.readReg t x) : s.v = t.v := by
  apply Vector.ext
  intro k hk
  have := h (BitVec.ofNat 4 k)
  simpa [State.readReg, Nat.mod_eq_of_lt (show k < 16 from hk)] using this

end Sys2Proof.Machine
end

