-- ==== Sys2Proof/Laws/Blitter.lean ====
section
/-! SUPPORT. What the row source, the blitter loops and the event list do, each said once. -/

namespace Sys2Proof.Machine

/-! ### The bounded row source -/

/-- The row source never faults: it gives the bytes from `a` on, as many as memory has. -/
theorem spriteBytes_ok (m : Memory) (a h : Nat) (ha : a ≤ 4096) :
    ∃ bs, spriteBytes m a h = .ok bs ∧ bs.length = min h (4096 - a) ∧
      ∀ k, k < bs.length → bs[k]? = some (Memory.byte m (a + k)) := by
  induction h generalizing a with
  | zero => exact ⟨[], rfl, by simp, by simp⟩
  | succ h ih =>
    by_cases hend : a > 0xFFF
    · exact ⟨[], by simp [spriteBytes, hend], by simp only [List.length_nil]; omega, by simp⟩
    · obtain ⟨bs, hbs, hlen, hget⟩ := ih (a + 1) (by omega)
      refine ⟨Memory.byte m a :: bs, ?_, by simp only [List.length_cons]; omega, ?_⟩
      · simp [spriteBytes, hend, hbs, Memory.read_ok (show a < memSize by simp only [memSize]; omega)]
      · intro k hk
        cases k with
        | zero => rfl
        | succ k =>
          simp only [List.length_cons] at hk
          simpa [Nat.add_assoc, Nat.add_comm, Nat.add_left_comm] using hget k (by omega)

/-! ### Operand ranges -/

theorem anchorCol_lt (vx : Byte) : anchorCol vx < 64 := Nat.mod_lt _ (by decide)

theorem anchorRow_lt (vy : Byte) : anchorRow vy < 32 := Nat.mod_lt _ (by decide)

theorem drawWidth_bound {c0 : Nat} (h : c0 < 64) : c0 + drawWidth c0 ≤ 64 ∧ drawWidth c0 ≤ 8 := by
  simp only [drawWidth, spriteW, gridW]; omega

theorem drawHeight_bound {n : Nibble} {r0 : Nat} (h : r0 < 32) : r0 + drawHeight n r0 ≤ 32 := by
  simp only [drawHeight, gridH]; omega

/-! ### One row -/

theorem Canvas.drawRow_cell (cv : Canvas) {row c0 : Nat} (b : Byte) (w : Nat) (hr : row < 32) (hc : c0 + w ≤ 64)
    (r c : Nat) :
    Framebuffer.cell (Canvas.drawRow cv row c0 b w).fb r c =
      (Framebuffer.cell cv.fb r c ^^ (decide (r = row ∧ c0 ≤ c ∧ c < c0 + w) && spriteBit b (c - c0))) := by
  induction w generalizing r c with
  | zero => simp [Canvas.drawRow, show ¬ (c0 ≤ c ∧ c < c0) by omega]
  | succ w ih =>
    simp only [Canvas.drawRow, Canvas.drawCell]
    rw [Framebuffer.cell_setCell _ _ ⟨hr, by omega⟩, ih (by omega), ih (by omega)]
    by_cases h : r = row ∧ c = c0 + w
    · obtain ⟨rfl, rfl⟩ := h
      simp
    · rw [if_neg h]
      congr 2
      simp only [decide_eq_decide]
      omega

theorem Canvas.drawRow_collided (cv : Canvas) {row c0 : Nat} (b : Byte) (w : Nat) (hr : row < 32) (hc : c0 + w ≤ 64) :
    (Canvas.drawRow cv row c0 b w).collided = true ↔
      cv.collided = true ∨ ∃ c, c < w ∧ Framebuffer.cell cv.fb row (c0 + c) = true ∧ spriteBit b c = true := by
  induction w with
  | zero => simp [Canvas.drawRow]
  | succ w ih =>
    simp only [Canvas.drawRow, Canvas.drawCell, collides, Bool.or_eq_true, Bool.and_eq_true]
    rw [ih (by omega), Canvas.drawRow_cell cv b w hr (by omega),
      decide_eq_false (show ¬ (row = row ∧ c0 ≤ c0 + w ∧ c0 + w < c0 + w) by omega), Bool.false_and, Bool.xor_false,
      or_assoc]
    refine or_congr Iff.rfl ⟨?_, ?_⟩
    · rintro (⟨c, h, h'⟩ | h)
      · exact ⟨c, by omega, h'⟩
      · exact ⟨w, by omega, h⟩
    · rintro ⟨c, h, h'⟩
      by_cases hcw : c = w
      · exact .inr (hcw ▸ h')
      · exact .inl ⟨c, by omega, h'⟩

/-! ### All rows -/

theorem Canvas.drawRows_cell {c0 w : Nat} (bs : List Byte) (row : Nat) (cv : Canvas) (hr : row + bs.length ≤ 32)
    (hc : c0 + w ≤ 64) (r c : Nat) :
    Framebuffer.cell (Canvas.drawRows c0 w bs row cv).fb r c =
      (Framebuffer.cell cv.fb r c ^^
        (decide (row ≤ r ∧ r < row + bs.length ∧ c0 ≤ c ∧ c < c0 + w) && spriteBit (bs.getD (r - row) 0#8) (c - c0))) := by
  induction bs generalizing row cv with
  | nil => simp [Canvas.drawRows, show ¬ (row ≤ r ∧ r < row ∧ c0 ≤ c ∧ c < c0 + w) by omega]
  | cons b bs ih =>
    simp only [List.length_cons] at hr
    simp only [Canvas.drawRows]
    rw [ih (row + 1) _ (by omega), Canvas.drawRow_cell cv b w (by omega) hc]
    rcases Nat.lt_trichotomy r row with h | h | h
    · simp [show ¬ r = row by omega, show ¬ row + 1 ≤ r by omega, show ¬ row ≤ r by omega]
    · subst h
      simp [show ¬ r + 1 ≤ r by omega]
    · obtain ⟨d, rfl⟩ : ∃ d, r = row + 1 + d := ⟨r - (row + 1), by omega⟩
      simp [show row + 1 + d ≠ row by omega, show row + 1 + d - row = d + 1 by omega, show row ≤ row + 1 + d by omega,
        show row + 1 + d < row + (bs.length + 1) ↔ d < bs.length by omega]

theorem Canvas.drawRows_collided {c0 w : Nat} (bs : List Byte) (row : Nat) (cv : Canvas) (hr : row + bs.length ≤ 32)
    (hc : c0 + w ≤ 64) :
    (Canvas.drawRows c0 w bs row cv).collided = true ↔
      cv.collided = true ∨ ∃ k c, k < bs.length ∧ c < w ∧ Framebuffer.cell cv.fb (row + k) (c0 + c) = true ∧
        spriteBit (bs.getD k 0#8) c = true := by
  induction bs generalizing row cv with
  | nil => simp [Canvas.drawRows]
  | cons b bs ih =>
    simp only [List.length_cons] at hr
    simp only [Canvas.drawRows]
    rw [ih (row + 1) _ (by omega), Canvas.drawRow_collided cv b w (by omega) hc, or_assoc]
    refine or_congr Iff.rfl ⟨?_, ?_⟩
    · rintro (⟨c, hcw, h⟩ | ⟨k, c, hk, hcw, h, h'⟩)
      · exact ⟨0, c, by simp, hcw, by simpa using h⟩
      · rw [Canvas.drawRow_cell cv b w (by omega) hc] at h
        refine ⟨k + 1, c, by simpa using hk, hcw, ?_, by simpa using h'⟩
        simpa [show row + 1 + k ≠ row by omega, show row + 1 + k = row + (k + 1) by omega] using h
    · rintro ⟨k, c, hk, hcw, h, h'⟩
      cases k with
      | zero => exact .inl ⟨c, hcw, by simpa using h, by simpa using h'⟩
      | succ k =>
        refine .inr ⟨k, c, by simpa using hk, hcw, ?_, by simpa using h'⟩
        rw [Canvas.drawRow_cell cv b w (by omega) hc]
        simpa [show row + 1 + k ≠ row by omega, show row + 1 + k = row + (k + 1) by omega] using h

/-! ### Events of the rectangle -/

theorem mem_rectEvents {fb : Framebuffer} {r0 c0 hd w : Nat} {e : SinkEvent} :
    e ∈ rectEvents fb r0 c0 hd w ↔
      ∃ r c, r < hd ∧ c < w ∧ e = .setCell (r0 + r) (c0 + c) (Framebuffer.cell fb (r0 + r) (c0 + c)) := by
  simp only [rectEvents, List.mem_flatMap, List.mem_range, List.mem_map]
  constructor
  · rintro ⟨r, hr, c, hc, rfl⟩; exact ⟨r, c, hr, hc, rfl⟩
  · rintro ⟨r, c, hr, hc, rfl⟩; exact ⟨r, hr, c, hc, rfl⟩

/-- The row-major list of R163 by one running index. -/
theorem rectEvents_eq_map (fb : Framebuffer) (r0 c0 hd : Nat) {w : Nat} (hw : 0 < w) :
    rectEvents fb r0 c0 hd w = (List.range (hd * w)).map fun k =>
      .setCell (r0 + k / w) (c0 + k % w) (Framebuffer.cell fb (r0 + k / w) (c0 + k % w)) := by
  induction hd with
  | zero => simp [rectEvents]
  | succ hd ih =>
    rw [rectEvents, List.range_succ, List.flatMap_append, Nat.succ_mul, List.range_add, List.map_append, ← rectEvents, ih]
    congr 1
    simp only [List.flatMap_cons, List.flatMap_nil, List.append_nil, List.map_map]
    apply List.map_congr_left
    intro c hc
    rw [List.mem_range] at hc
    have hdiv : (hd * w + c) / w = hd := by rw [Nat.mul_comm, Nat.mul_add_div hw, Nat.div_eq_of_lt hc]; simp
    have hmod : (hd * w + c) % w = c := by rw [Nat.mul_comm, Nat.mul_add_mod, Nat.mod_eq_of_lt hc]
    simp [hdiv, hmod]

/-! ### The instruction -/

/-- `Display` always completes: its rows are the bytes from I on, clipped, and the state is `drawSprite`'s. -/
theorem execDisplay_next (x y n : Nibble) {pw : Nat} (s : State pw) :
    ∃ rows, execDisplay x y n s =
        .next (drawSprite s (anchorCol (State.readReg s x)) (anchorRow (State.readReg s y)) rows) ∧
      rows.length = min (drawHeight n (anchorRow (State.readReg s y))) (4096 - s.index.toNat) ∧
      ∀ k, k < rows.length → rows[k]? = some (Memory.byte s.mem (s.index.toNat + k)) := by
  obtain ⟨rows, h, hlen, hget⟩ := spriteBytes_ok s.mem s.index.toNat (drawHeight n (anchorRow (State.readReg s y)))
    (Nat.le_of_lt s.index.isLt)
  exact ⟨rows, by simp [execDisplay, h], hlen, hget⟩

/-- What a drawn sprite leaves alone. -/
theorem drawSprite_frame {pw : Nat} (s : State pw) (c0 r0 : Nat) (rows : List Byte) :
    (drawSprite s c0 r0 rows).index = s.index ∧ (drawSprite s c0 r0 rows).pc = s.pc ∧
      (drawSprite s c0 r0 rows).stack = s.stack ∧ (drawSprite s c0 r0 rows).run = s.run ∧
      (drawSprite s c0 r0 rows).runState = s.runState ∧ (drawSprite s c0 r0 rows).haltWord = s.haltWord ∧
      (drawSprite s c0 r0 rows).haltAddr = s.haltAddr ∧ (drawSprite s c0 r0 rows).abortReason = s.abortReason ∧
      (drawSprite s c0 r0 rows).mem = s.mem :=
  ⟨rfl, rfl, rfl, rfl, rfl, rfl, rfl, rfl, rfl⟩

theorem drawSprite_readReg {pw : Nat} (s : State pw) (c0 r0 : Nat) (rows : List Byte) (x : Nibble) :
    State.readReg (drawSprite s c0 r0 rows) x =
      if x = regVF then flagByte (Canvas.drawRows c0 (drawWidth c0) rows r0 ⟨s.fb, false⟩).collided
      else State.readReg s x := by
  simp only [drawSprite, State.emit_readReg, State.readReg_writeVF, State.setFb_readReg, State.writeVF_fb]
  split <;> rfl

theorem drawSprite_fb {pw : Nat} (s : State pw) (c0 r0 : Nat) (rows : List Byte) :
    (drawSprite s c0 r0 rows).fb = (Canvas.drawRows c0 (drawWidth c0) rows r0 ⟨s.fb, false⟩).fb := rfl

theorem drawSprite_events {pw : Nat} (s : State pw) (c0 r0 : Nat) (rows : List Byte) :
    (drawSprite s c0 r0 rows).events =
      s.events ++ (rectEvents (drawSprite s c0 r0 rows).fb r0 c0 rows.length (drawWidth c0) ++ [.flush]) := rfl

end Sys2Proof.Machine
end

