-- ==== Sys2Proof/Laws/Decode.lean ====
section
/-! SUPPORT. Fields of a word: by division, of a word built from its fields, and under the table's masks. -/

namespace Sys2Proof

theorem familyOf_toNat (w : Word) : (familyOf w).toNat = w.toNat / 4096 := by
  simp [familyOf, field, BitVec.extractLsb'_toNat, Nat.shiftRight_eq_div_pow]; omega

theorem fieldX_toNat (w : Word) : (fieldX w).toNat = w.toNat / 256 % 16 := by
  simp [fieldX, field, BitVec.extractLsb'_toNat, Nat.shiftRight_eq_div_pow]

theorem fieldY_toNat (w : Word) : (fieldY w).toNat = w.toNat / 16 % 16 := by
  simp [fieldY, field, BitVec.extractLsb'_toNat, Nat.shiftRight_eq_div_pow]

theorem fieldN_toNat (w : Word) : (fieldN w).toNat = w.toNat % 16 := by
  simp [fieldN, field]

theorem fieldNN_toNat (w : Word) : (fieldNN w).toNat = w.toNat % 256 := by
  simp [fieldNN, field]

theorem fieldNNN_toNat (w : Word) : (fieldNNN w).toNat = w.toNat % 4096 := by
  simp [fieldNNN, field]

/-! ### Words built from fields -/

theorem wordA_toNat (f : Nibble) (nnn : Addr) : (f ++ nnn).toNat = f.toNat * 4096 + nnn.toNat := by
  rw [BitVec.toNat_append, ← Nat.shiftLeft_add_eq_or_of_lt nnn.isLt, Nat.shiftLeft_eq]

theorem wordRI_toNat (f x : Nibble) (nn : Byte) : (f ++ x ++ nn).toNat = f.toNat * 4096 + x.toNat * 256 + nn.toNat := by
  rw [BitVec.toNat_append, ← Nat.shiftLeft_add_eq_or_of_lt nn.isLt, Nat.shiftLeft_eq, BitVec.toNat_append,
    ← Nat.shiftLeft_add_eq_or_of_lt x.isLt, Nat.shiftLeft_eq]
  omega

theorem wordRRN_toNat (f x y n : Nibble) :
    (f ++ x ++ y ++ n).toNat = f.toNat * 4096 + x.toNat * 256 + y.toNat * 16 + n.toNat := by
  rw [BitVec.toNat_append, ← Nat.shiftLeft_add_eq_or_of_lt n.isLt, Nat.shiftLeft_eq, BitVec.toNat_append,
    ← Nat.shiftLeft_add_eq_or_of_lt y.isLt, Nat.shiftLeft_eq, BitVec.toNat_append,
    ← Nat.shiftLeft_add_eq_or_of_lt x.isLt, Nat.shiftLeft_eq]
  omega

/-! ### Fields of words built from fields -/

@[simp] theorem familyOf_wordA (f : Nibble) (nnn : Addr) : familyOf (f ++ nnn) = f :=
  BitVec.eq_of_toNat_eq (by rw [familyOf_toNat, wordA_toNat]; have := nnn.isLt; omega)

@[simp] theorem fieldNNN_wordA (f : Nibble) (nnn : Addr) : fieldNNN (f ++ nnn) = nnn :=
  BitVec.eq_of_toNat_eq (by rw [fieldNNN_toNat, wordA_toNat]; have := nnn.isLt; omega)

@[simp] theorem familyOf_wordRI (f x : Nibble) (nn : Byte) : familyOf (f ++ x ++ nn) = f :=
  BitVec.eq_of_toNat_eq (by rw [familyOf_toNat, wordRI_toNat]; have := nn.isLt; have := x.isLt; omega)

@[simp] theorem fieldX_wordRI (f x : Nibble) (nn : Byte) : fieldX (f ++ x ++ nn) = x :=
  BitVec.eq_of_toNat_eq (by rw [fieldX_toNat, wordRI_toNat]; have := nn.isLt; have := x.isLt; omega)

@[simp] theorem fieldNN_wordRI (f x : Nibble) (nn : Byte) : fieldNN (f ++ x ++ nn) = nn :=
  BitVec.eq_of_toNat_eq (by rw [fieldNN_toNat, wordRI_toNat]; have := nn.isLt; have := x.isLt; omega)

@[simp] theorem familyOf_wordRRN (f x y n : Nibble) : familyOf (f ++ x ++ y ++ n) = f :=
  BitVec.eq_of_toNat_eq (by
    rw [familyOf_toNat, wordRRN_toNat]; have := x.isLt; have := y.isLt; have := n.isLt; omega)

@[simp] theorem fieldX_wordRRN (f x y n : Nibble) : fieldX (f ++ x ++ y ++ n) = x :=
  BitVec.eq_of_toNat_eq (by
    rw [fieldX_toNat, wordRRN_toNat]; have := x.isLt; have := y.isLt; have := n.isLt; omega)

@[simp] theorem fieldY_wordRRN (f x y n : Nibble) : fieldY (f ++ x ++ y ++ n) = y :=
  BitVec.eq_of_toNat_eq (by
    rw [fieldY_toNat, wordRRN_toNat]; have := x.isLt; have := y.isLt; have := n.isLt; omega)

@[simp] theorem fieldN_wordRRN (f x y n : Nibble) : fieldN (f ++ x ++ y ++ n) = n :=
  BitVec.eq_of_toNat_eq (by
    rw [fieldN_toNat, wordRRN_toNat]; have := x.isLt; have := y.isLt; have := n.isLt; omega)

/-! ### The table's masks -/

theorem wordA_getLsbD (f : Nibble) (nnn : Addr) (i : Nat) :
    BitVec.getLsbD (w := 16) (f ++ nnn) i = if i < 12 then nnn.getLsbD i else f.getLsbD (i - 12) :=
  BitVec.getLsbD_append

theorem wordRI_getLsbD (f x : Nibble) (nn : Byte) (i : Nat) :
    BitVec.getLsbD (w := 16) (f ++ x ++ nn) i =
      if i < 8 then nn.getLsbD i else if i - 8 < 4 then x.getLsbD (i - 8) else f.getLsbD (i - 8 - 4) := by
  rw [← BitVec.getLsbD_append, ← BitVec.getLsbD_append]

theorem wordRRN_getLsbD (f x y n : Nibble) (i : Nat) :
    BitVec.getLsbD (w := 16) (f ++ x ++ y ++ n) i =
      if i < 4 then n.getLsbD i else if i - 4 < 4 then y.getLsbD (i - 4)
      else if i - 4 - 4 < 4 then x.getLsbD (i - 4 - 4) else f.getLsbD (i - 4 - 4 - 4) := by
  rw [← BitVec.getLsbD_append, ← BitVec.getLsbD_append, ← BitVec.getLsbD_append]

theorem and_F000 (w : Word) : w &&& 0xF000#16 = familyOf w ++ 0x000#12 := by
  apply BitVec.eq_of_getLsbD_eq
  intro i hi
  rw [wordA_getLsbD]
  interval_cases i <;> simp [familyOf, field]

theorem and_F00F (w : Word) : w &&& 0xF00F#16 = familyOf w ++ 0x0#4 ++ 0x0#4 ++ fieldN w := by
  apply BitVec.eq_of_getLsbD_eq
  intro i hi
  rw [wordRRN_getLsbD]
  interval_cases i <;> simp [familyOf, fieldN, field]

theorem and_F0FF (w : Word) : w &&& 0xF0FF#16 = familyOf w ++ 0x0#4 ++ fieldNN w := by
  apply BitVec.eq_of_getLsbD_eq
  intro i hi
  rw [wordRI_getLsbD]
  interval_cases i <;> simp [familyOf, fieldNN, field]

theorem and_FFFF (w : Word) : w &&& 0xFFFF#16 = familyOf w ++ fieldX w ++ fieldNN w := by
  apply BitVec.eq_of_getLsbD_eq
  intro i hi
  rw [wordRI_getLsbD]
  interval_cases i <;> simp [familyOf, fieldX, fieldNN, field]

theorem word_eq_iff (w w' : Word) : w = w' ↔ w.toNat = w'.toNat := BitVec.toNat_inj.symm

theorem hitsF000 (m : String) (p w : Word) (hp : p.toNat % 4096 = 0) :
    (OpcodeRow.hits ⟨m, p, 0xF000#16⟩ w) = decide (w.toNat / 4096 = p.toNat / 4096) := by
  rw [OpcodeRow.hits, and_F000, Bool.eq_iff_iff, beq_iff_eq, decide_eq_true_iff, word_eq_iff, wordA_toNat, familyOf_toNat]
  simp only [BitVec.toNat_ofNat]
  omega

theorem hitsF00F (m : String) (p w : Word) (hp : p.toNat % 4096 = 0) :
    (OpcodeRow.hits ⟨m, p, 0xF00F#16⟩ w) = decide (w.toNat / 4096 = p.toNat / 4096 ∧ w.toNat % 16 = 0) := by
  rw [OpcodeRow.hits, and_F00F, Bool.eq_iff_iff, beq_iff_eq, decide_eq_true_iff, word_eq_iff, wordRRN_toNat,
    familyOf_toNat, fieldN_toNat]
  simp only [BitVec.toNat_ofNat]
  omega

theorem hitsF0FF (m : String) (p w : Word) (hp : p.toNat < 256) :
    (OpcodeRow.hits ⟨m, p, 0xF0FF#16⟩ w) = decide (w.toNat / 4096 = 0 ∧ w.toNat % 256 = p.toNat) := by
  rw [OpcodeRow.hits, and_F0FF, Bool.eq_iff_iff, beq_iff_eq, decide_eq_true_iff, word_eq_iff, wordRI_toNat,
    familyOf_toNat, fieldNN_toNat]
  simp only [BitVec.toNat_ofNat]
  omega

theorem hitsFFFF (m : String) (p w : Word) (hp : p.toNat < 256) :
    (OpcodeRow.hits ⟨m, p, 0xFFFF#16⟩ w) =
      decide (w.toNat / 4096 = 0 ∧ w.toNat / 256 % 16 = 0 ∧ w.toNat % 256 = p.toNat) := by
  rw [OpcodeRow.hits, and_FFFF, Bool.eq_iff_iff, beq_iff_eq, decide_eq_true_iff, word_eq_iff, wordRI_toNat,
    familyOf_toNat, fieldX_toNat, fieldNN_toNat]
  dsimp only
  omega

/-- The first row of the table a word hits, by its family, its low byte and its low nibble (30_encoding.md R64). -/
theorem lookupRow_opcodeTable (c : Config) (w : Word) :
    lookupRow (opcodeTable c) w =
      if w.toNat / 4096 = 0 then
        if c.family0Strict = true ∧ w.toNat / 256 % 16 ≠ 0 then "Unsupported"
        else if w.toNat % 256 = 0xE0 then "ClearScreen" else if w.toNat % 256 = 0xEE then "LeaveSubr" else "Unsupported"
      else if w.toNat / 4096 = 1 then "Jump" else if w.toNat / 4096 = 2 then "EnterSubr"
      else if w.toNat / 4096 = 3 then "SkipIfEq" else if w.toNat / 4096 = 4 then "SkipIfNEq"
      else if w.toNat / 4096 = 5 then
        if c.strictLowNibble59 = true ∧ w.toNat % 16 ≠ 0 then "Unsupported" else "SkipIfEqXY"
      else if w.toNat / 4096 = 6 then "SetReg" else if w.toNat / 4096 = 7 then "AddToReg"
      else if w.toNat / 4096 = 9 then
        if c.strictLowNibble59 = true ∧ w.toNat % 16 ≠ 0 then "Unsupported" else "SkipIfNEqXY"
      else if w.toNat / 4096 = 10 then "SetIndex" else if w.toNat / 4096 = 13 then "Display" else "Unsupported" := by
  have hf : w.toNat / 4096 < 16 := by have := w.isLt; omega
  obtain ⟨pw, d, mp, s59, f0, rr, rm⟩ := c
  cases s59 <;> cases f0 <;>
    simp only [opcodeTable, lookupRow, family0Mask, rrMask, if_true, if_false, Bool.false_eq_true, false_and, true_and,
      hitsF000, hitsF00F, hitsF0FF, hitsFFFF, BitVec.toNat_ofNat, decide_eq_true_eq, Nat.reducePow, Nat.reduceMod,
      Nat.reduceDiv, Nat.reduceLT] <;>
    generalize w.toNat / 4096 = f at * <;>
    interval_cases f <;>
    by_cases hx : w.toNat / 256 % 16 = 0 <;>
    by_cases hn : w.toNat % 16 = 0 <;>
    simp [hx, hn]

end Sys2Proof
end

