-- ==== Sys2Proof/Laws/PerInstr.lean ====
section
/-! SUPPORT. Per-instruction lemmas, one per constructor of Instr: the encoding of a well-formed instruction hits its own row
of the opcode table first (30_encoding.md R64, R78). -/

namespace Sys2Proof.Laws.EncodingRow

/-- The word of a well-formed instruction is found under the instruction's own row, whatever the parameters. -/
def Statement (i : Instr) : Prop :=
  ∀ c : Config, i.wfWith c = true → lookupRow (opcodeTable c) (encode i) = i.mnemonic

/-- A word that no row hits is looked up as `Unsupported`. -/
theorem lookupRow_none {rows : List OpcodeRow} {w : Word} (h : rows.any (fun r => r.hits w) = false) :
    lookupRow rows w = "Unsupported" := by
  induction rows with
  | nil => rfl
  | cons r rows ih =>
    rw [List.any_cons, Bool.or_eq_false_iff] at h
    simp [lookupRow, h.1, ih h.2]

theorem clearScreen : Statement .clearScreen := by
  intro c _
  rw [lookupRow_opcodeTable]
  simp [encode, Instr.mnemonic]

theorem leaveSubr : Statement .leaveSubr := by
  intro c _
  rw [lookupRow_opcodeTable]
  simp [encode, Instr.mnemonic]

theorem jump (nnn : Addr) : Statement (.jump nnn) := by
  intro c _
  have hn := nnn.isLt
  rw [lookupRow_opcodeTable, encode, wordA_toNat]
  simp only [BitVec.toNat_ofNat, Nat.reducePow, Nat.reduceMod, Nat.reduceMul, show (4096 + nnn.toNat) / 4096 = 1 by omega]
  rfl

theorem enterSubr (nnn : Addr) : Statement (.enterSubr nnn) := by
  intro c _
  have hn := nnn.isLt
  rw [lookupRow_opcodeTable, encode, wordA_toNat]
  simp only [BitVec.toNat_ofNat, Nat.reducePow, Nat.reduceMod, Nat.reduceMul, show (8192 + nnn.toNat) / 4096 = 2 by omega]
  rfl

theorem skipIfEq (x : Nibble) (nn : Byte) : Statement (.skipIfEq x nn) := by
  intro c _
  have hx := x.isLt
  have hn := nn.isLt
  rw [lookupRow_opcodeTable, encode, wordRI_toNat]
  simp only [BitVec.toNat_ofNat, Nat.reducePow, Nat.reduceMod, Nat.reduceMul, show (12288 + x.toNat * 256 + nn.toNat) / 4096 = 3 by omega]
  rfl

theorem skipIfNEq (x : Nibble) (nn : Byte) : Statement (.skipIfNEq x nn) := by
  intro c _
  have hx := x.isLt
  have hn := nn.isLt
  rw [lookupRow_opcodeTable, encode, wordRI_toNat]
  simp only [BitVec.toNat_ofNat, Nat.reducePow, Nat.reduceMod, Nat.reduceMul, show (16384 + x.toNat * 256 + nn.toNat) / 4096 = 4 by omega]
  rfl

theorem skipIfEqXY (x y : Nibble) : Statement (.skipIfEqXY x y) := by
  intro c _
  have hx := x.isLt
  have hy := y.isLt
  rw [lookupRow_opcodeTable, encode, wordRRN_toNat]
  simp only [BitVec.toNat_ofNat, Nat.reducePow, Nat.reduceMod, Nat.reduceMul, show (20480 + x.toNat * 256 + y.toNat * 16 + 0) / 4096 = 5 by omega, show (20480 + x.toNat * 256 + y.toNat * 16 + 0) % 16 = 0 by omega]
  simp [Instr.mnemonic]

theorem setReg (x : Nibble) (nn : Byte) : Statement (.setReg x nn) := by
  intro c _
  have hx := x.isLt
  have hn := nn.isLt
  rw [lookupRow_opcodeTable, encode, wordRI_toNat]
  simp only [BitVec.toNat_ofNat, Nat.reducePow, Nat.reduceMod, Nat.reduceMul, show (24576 + x.toNat * 256 + nn.toNat) / 4096 = 6 by omega]
  rfl

theorem addToReg (x : Nibble) (nn : Byte) : Statement (.addToReg x nn) := by
  intro c _
  have hx := x.isLt
  have hn := nn.isLt
  rw [lookupRow_opcodeTable, encode, wordRI_toNat]
  simp only [BitVec.toNat_ofNat, Nat.reducePow, Nat.reduceMod, Nat.reduceMul, show (28672 + x.toNat * 256 + nn.toNat) / 4096 = 7 by omega]
  rfl

theorem skipIfNEqXY (x y : Nibble) : Statement (.skipIfNEqXY x y) := by
  intro c _
  have hx := x.isLt
  have hy := y.isLt
  rw [lookupRow_opcodeTable, encode, wordRRN_toNat]
  simp only [BitVec.toNat_ofNat, Nat.reducePow, Nat.reduceMod, Nat.reduceMul, show (36864 + x.toNat * 256 + y.toNat * 16 + 0) / 4096 = 9 by omega, show (36864 + x.toNat * 256 + y.toNat * 16 + 0) % 16 = 0 by omega]
  simp [Instr.mnemonic]

theorem setIndex (nnn : Addr) : Statement (.setIndex nnn) := by
  intro c _
  have hn := nnn.isLt
  rw [lookupRow_opcodeTable, encode, wordA_toNat]
  simp only [BitVec.toNat_ofNat, Nat.reducePow, Nat.reduceMod, Nat.reduceMul, show (40960 + nnn.toNat) / 4096 = 10 by omega]
  rfl

theorem display (x y n : Nibble) : Statement (.display x y n) := by
  intro c _
  have hx := x.isLt
  have hy := y.isLt
  have hn := n.isLt
  rw [lookupRow_opcodeTable, encode, wordRRN_toNat]
  simp only [BitVec.toNat_ofNat, Nat.reducePow, Nat.reduceMod, Nat.reduceMul, show (53248 + x.toNat * 256 + y.toNat * 16 + n.toNat) / 4096 = 13 by omega]
  rfl

theorem unsupported (w : Word) : Statement (.unsupported w) := by
  intro c h
  exact lookupRow_none (by simpa [Instr.wfWith, encode] using h)

end Sys2Proof.Laws.EncodingRow
end

