-- ==== Sys2Proof/Laws/Step.lean ====
section
/-! SUPPORT. What an instruction and a step can do, each said once: the lemmas that claims about `exec` and `step` cite. -/

namespace Sys2Proof.Machine

/-! ### Parameters -/

theorem execWith_hardware (i : Instr) (s : State) : execWith hardwareBuild i s = exec i s := by
  cases i <;> rfl

theorem stepWith_hardware (s : State) : stepWith hardwareBuild s = step s := by
  have h : execWith hardwareBuild = exec := funext fun i => funext fun s => execWith_hardware i s
  exact congrArg (fun d => engineStep hardwareBuild d s) h

theorem resetWith_hardware : State.resetWith hardwareBuild = State.reset := rfl

/-! ### The engine -/

theorem misaligned_hardware {pw : Nat} (pc : BitVec pw) : misaligned hardwareBuild pc = decide (pc.toNat % 2 = 1) := by
  simp [misaligned, hardwareBuild, BitVec.getLsbD, Nat.testBit_zero]

theorem fetchFails_iff (a : Nat) : fetchFails a = true ↔ a < 0x200 ∨ 0xFFE < a := by
  simp only [fetchFails, loadAddr, memSize, Bool.or_eq_true, decide_eq_true_eq, gt_iff_lt]

/-- Every way a step of the engine can go (40_execution_engine.md R90), for any parameters. -/
theorem engineStep_cases (c : Config) {pw : Nat} (d : Instr → State pw → Host.Outcome (State pw) Fault Refusal)
    (s : State pw) :
    (s.run ≠ .running ∧ engineStep c d s = .next s) ∨
    (s.run = .running ∧ (s.pc.toNat < 0x200 ∨ 0xFFE < s.pc.toNat) ∧ engineStep c d s = .next (State.haltProgramEnd s)) ∨
    (s.run = .running ∧ 0x200 ≤ s.pc.toNat ∧ s.pc.toNat ≤ 0xFFE ∧ misaligned c s.pc = true ∧
      engineStep c d s = .next (State.raiseAbort s .misalignedPC)) ∨
    (s.run = .running ∧ 0x200 ≤ s.pc.toNat ∧ s.pc.toNat ≤ 0xFFE ∧ misaligned c s.pc = false ∧
      engineStep c d s =
        d (decodeWith c (bigEndian (Memory.byte s.mem s.pc.toNat) (Memory.byte s.mem (s.pc.toNat + 1)))) (State.advance s)) := by
  unfold engineStep
  by_cases hrun : s.run = .running
  · simp only [hrun, ne_eq, not_true_eq_false, if_false, true_and, false_and, false_or]
    by_cases hf : fetchFails s.pc.toNat = true
    · exact .inl ⟨(fetchFails_iff _).1 hf, by simp [hf]⟩
    · have hb : ¬ (s.pc.toNat < 0x200 ∨ 0xFFE < s.pc.toNat) := fun h => hf ((fetchFails_iff _).2 h)
      refine .inr ?_
      by_cases hm : misaligned c s.pc = true
      · exact .inl ⟨by omega, by omega, hm, by simp [hf, hm]⟩
      · refine .inr ⟨by omega, by omega, by simpa using hm, ?_⟩
        rw [if_neg hf, if_neg hm, Memory.fetch16_ok (show s.pc.toNat + 1 < memSize by simp only [memSize]; omega)]
  · exact .inl ⟨hrun, by simp [hrun]⟩

/-- Every way a step of the hardware build can go. -/
theorem step_cases (s : State) :
    (s.run ≠ .running ∧ step s = .next s) ∨
    (s.run = .running ∧ (s.pc.toNat < 0x200 ∨ 0xFFE < s.pc.toNat) ∧ step s = .next (State.haltProgramEnd s)) ∨
    (s.run = .running ∧ 0x200 ≤ s.pc.toNat ∧ s.pc.toNat ≤ 0xFFE ∧ s.pc.toNat % 2 = 1 ∧
      step s = .next (State.raiseAbort s .misalignedPC)) ∨
    (s.run = .running ∧ 0x200 ≤ s.pc.toNat ∧ s.pc.toNat ≤ 0xFFE ∧ s.pc.toNat % 2 = 0 ∧
      step s =
        exec (decode (bigEndian (Memory.byte s.mem s.pc.toNat) (Memory.byte s.mem (s.pc.toNat + 1)))) (State.advance s)) := by
  have h := engineStep_cases hardwareBuild exec s
  rw [misaligned_hardware] at h
  have hodd : decide (s.pc.toNat % 2 = 1) = false ↔ s.pc.toNat % 2 = 0 := by
    rw [decide_eq_false_iff_not]; omega
  rw [decide_eq_true_iff, hodd] at h
  exact h

/-- The advance as the spec writes it, `a + 2` (40_execution_engine.md R94). -/
theorem advance_eq {pw : Nat} (s : State pw) :
    State.advance s = { s with pc := BitVec.ofNat pw (s.pc.toNat + 2) } := by
  have h : s.pc + 2#pw = BitVec.ofNat pw (s.pc.toNat + 2) := by
    apply BitVec.eq_of_toNat_eq
    simp
  simp [State.advance, State.setPc, h]

/-- The PC advance never wraps where a step makes it (10_state.md R24). -/
theorem advance_pc_toNat {pw : Nat} {s : State pw} (hw : 13 ≤ pw) (h : s.pc.toNat ≤ 0xFFE) :
    (State.advance s).pc.toNat = s.pc.toNat + 2 := by
  have : 2 ^ 13 ≤ 2 ^ pw := Nat.pow_le_pow_right (by decide) hw
  rw [advance_eq, BitVec.toNat_ofNat, Nat.mod_eq_of_lt (by omega)]

/-- The word a step fetches is the big-endian word at the PC. -/
theorem fetchesWord_eq {pw : Nat} {s : State pw} {w : Word} (h : FetchesWord s w) :
    w = bigEndian (Memory.byte s.mem s.pc.toNat) (Memory.byte s.mem (s.pc.toNat + 1)) :=
  BitVec.eq_of_toNat_eq (by rw [h.2.2.2.2, bigEndian_toNat])

/-- A running block with a PC inside the bounds and even fetches exactly one word. -/
theorem fetchesWord_bigEndian {pw : Nat} {s : State pw} (hr : s.run = .running) (h1 : 0x200 ≤ s.pc.toNat) (h2 : s.pc.toNat ≤ 0xFFE)
    (h3 : s.pc.toNat % 2 = 0) :
    FetchesWord s (bigEndian (Memory.byte s.mem s.pc.toNat) (Memory.byte s.mem (s.pc.toNat + 1))) :=
  ⟨hr, h1, h2, h3, bigEndian_toNat _ _⟩

/-! ### Each instruction -/

theorem exec_leaveSubr_empty {s : State} (h : s.stack = []) :
    exec .leaveSubr s = .next (State.raiseAbort s .emptyStackPop) := by
  simp [exec, execLeaveSubr, h]

theorem exec_leaveSubr_pop {s : State} {st : List Word} {ret : Word} (h : s.stack = st ++ [ret]) :
    exec .leaveSubr s = .next (State.setPc (State.dropTop s) ret) := by
  simp [exec, execLeaveSubr, h]

theorem exec_enterSubr_full {s : State} (nnn : Addr) (h : s.stack.length = 16) :
    exec (.enterSubr nnn) s = .next (State.raiseAbort s .stackOverflow) := by
  simp [exec, execEnterSubr, execEnterSubrWith, stackFull, hardwareBuild, h]

theorem exec_enterSubr_push {s : State} (nnn : Addr) (h : s.stack.length ≠ 16) :
    exec (.enterSubr nnn) s = .next (State.setPc (State.push s s.pc) (target nnn)) := by
  simp [exec, execEnterSubr, execEnterSubrWith, stackFull, hardwareBuild, show ¬ 16 = s.stack.length from fun e => h e.symm]

/-- The target as a number, at any width. -/
theorem target_eq {pw : Nat} (nnn : Addr) : (target nnn : BitVec pw) = BitVec.ofNat pw nnn.toNat :=
  BitVec.eq_of_toNat_eq (by simp [target])

theorem target_toNat {pw : Nat} (hw : 12 ≤ pw) (nnn : Addr) : (target nnn : BitVec pw).toNat = nnn.toNat := by
  have : 2 ^ 12 ≤ 2 ^ pw := Nat.pow_le_pow_right (by decide) hw
  have := nnn.isLt
  rw [target_eq, BitVec.toNat_ofNat, Nat.mod_eq_of_lt (by omega)]

theorem skipWhen_next (b : Bool) {pw : Nat} (s : State pw) : skipWhen b s = .next (if b then State.advance s else s) := rfl

theorem execWith_leaveSubr_empty {c : Config} {s : State c.pcWidth} (h : s.stack = []) :
    execWith c .leaveSubr s = .next (State.raiseAbort s .emptyStackPop) := by
  simp [execWith, execLeaveSubr, h]

theorem execWith_leaveSubr_pop {c : Config} {s : State c.pcWidth} {st : List (BitVec c.pcWidth)} {ret : BitVec c.pcWidth}
    (h : s.stack = st ++ [ret]) : execWith c .leaveSubr s = .next (State.setPc (State.dropTop s) ret) := by
  simp [execWith, execLeaveSubr, h]

theorem execWith_enterSubr_full {c : Config} {s : State c.pcWidth} (nnn : Addr) (h : c.stackDepth = some s.stack.length) :
    execWith c (.enterSubr nnn) s = .next (State.raiseAbort s .stackOverflow) := by
  simp [execWith, execEnterSubrWith, stackFull, h]

theorem execWith_enterSubr_push {c : Config} {s : State c.pcWidth} (nnn : Addr) (h : c.stackDepth ≠ some s.stack.length) :
    execWith c (.enterSubr nnn) s = .next (State.setPc (State.push s s.pc) (target nnn)) := by
  simp [execWith, execEnterSubrWith, stackFull, h]

/-- Every way an instruction can go: under any parameters: what a next state can be, instruction by
instruction. -/
theorem execWith_cases (c : Config) (i : Instr) (s : State c.pcWidth) :
    (i = .clearScreen ∧ execWith c i s = .next (State.emit (State.setFb s Framebuffer.blank) [.clearAll, .flush])) ∨
    (i = .leaveSubr ∧ s.stack = [] ∧ execWith c i s = .next (State.raiseAbort s .emptyStackPop)) ∨
    (i = .leaveSubr ∧ ∃ st ret, s.stack = st ++ [ret] ∧ execWith c i s = .next (State.setPc (State.dropTop s) ret)) ∨
    (∃ nnn, i = .jump nnn ∧ execWith c i s = .next (State.setPc s (target nnn))) ∨
    (∃ nnn, i = .enterSubr nnn ∧ c.stackDepth = some s.stack.length ∧ execWith c i s = .next (State.raiseAbort s .stackOverflow)) ∨
    (∃ nnn, i = .enterSubr nnn ∧ c.stackDepth ≠ some s.stack.length ∧ execWith c i s = .next (State.setPc (State.push s s.pc) (target nnn))) ∨
    (((∃ x nn, i = .skipIfEq x nn) ∨ (∃ x nn, i = .skipIfNEq x nn) ∨ (∃ x y, i = .skipIfEqXY x y) ∨
        (∃ x y, i = .skipIfNEqXY x y)) ∧ (execWith c i s = .next s ∨ execWith c i s = .next (State.advance s))) ∨
    (∃ x nn, i = .setReg x nn ∧ execWith c i s = .next (State.writeReg s x nn)) ∨
    (∃ x nn, i = .addToReg x nn ∧ execWith c i s = .next (State.writeReg s x (State.readReg s x + nn))) ∨
    (∃ nnn, i = .setIndex nnn ∧ execWith c i s = .next (State.setIndex s nnn)) ∨
    (∃ x y n rows, i = .display x y n ∧
      execWith c i s = .next (drawSprite s (anchorCol (State.readReg s x)) (anchorRow (State.readReg s y)) rows) ∧
      rows.length = min (drawHeight n (anchorRow (State.readReg s y))) (4096 - s.index.toNat) ∧
      ∀ k, k < rows.length → rows[k]? = some (Memory.byte s.mem (s.index.toNat + k))) ∨
    (∃ w, i = .unsupported w ∧ execWith c i s = .next (State.haltUnsupported s w)) := by
  have skip : ∀ b, skipWhen b s = .next s ∨ skipWhen b s = .next (State.advance s) := by
    rintro (_ | _) <;> simp [skipWhen]
  cases i with
  | clearScreen => simp [execWith, execClearScreen]
  | leaveSubr =>
    rcases List.eq_nil_or_concat s.stack with h | ⟨st, ret, h⟩
    · exact .inr (.inl ⟨rfl, h, execWith_leaveSubr_empty h⟩)
    · rw [List.concat_eq_append] at h
      exact .inr (.inr (.inl ⟨rfl, st, ret, h, execWith_leaveSubr_pop h⟩))
  | jump nnn => simp [execWith, execJump]
  | enterSubr nnn =>
    by_cases h : c.stackDepth = some s.stack.length
    · simp [execWith_enterSubr_full nnn h, h]
    · simp [execWith_enterSubr_push nnn h, h]
  | skipIfEq x nn => simpa [execWith, execSkipIfEq] using skip _
  | skipIfNEq x nn => simpa [execWith, execSkipIfNEq] using skip _
  | skipIfEqXY x y => simpa [execWith, execSkipIfEqXY] using skip _
  | skipIfNEqXY x y => simpa [execWith, execSkipIfNEqXY] using skip _
  | setReg x nn => simp [execWith, execSetReg]
  | addToReg x nn => simp [execWith, execAddToReg]
  | setIndex nnn => simp [execWith, execSetIndex]
  | display x y n =>
    obtain ⟨rows, h⟩ := execDisplay_next x y n s
    exact .inr (.inr (.inr (.inr (.inr (.inr (.inr (.inr (.inr (.inr (.inl ⟨x, y, n, rows, rfl, h⟩))))))))))
  | unsupported w => simp [execWith, execUnsupported]

/-- Every way an instruction can go: what a next state can be, instruction by instruction. -/
theorem exec_cases (i : Instr) (s : State) :
    (i = .clearScreen ∧ exec i s = .next (State.emit (State.setFb s Framebuffer.blank) [.clearAll, .flush])) ∨
    (i = .leaveSubr ∧ s.stack = [] ∧ exec i s = .next (State.raiseAbort s .emptyStackPop)) ∨
    (i = .leaveSubr ∧ ∃ st ret, s.stack = st ++ [ret] ∧ exec i s = .next (State.setPc (State.dropTop s) ret)) ∨
    (∃ nnn, i = .jump nnn ∧ exec i s = .next (State.setPc s (target nnn))) ∨
    (∃ nnn, i = .enterSubr nnn ∧ s.stack.length = 16 ∧ exec i s = .next (State.raiseAbort s .stackOverflow)) ∨
    (∃ nnn, i = .enterSubr nnn ∧ s.stack.length ≠ 16 ∧ exec i s = .next (State.setPc (State.push s s.pc) (target nnn))) ∨
    (((∃ x nn, i = .skipIfEq x nn) ∨ (∃ x nn, i = .skipIfNEq x nn) ∨ (∃ x y, i = .skipIfEqXY x y) ∨
        (∃ x y, i = .skipIfNEqXY x y)) ∧ (exec i s = .next s ∨ exec i s = .next (State.advance s))) ∨
    (∃ x nn, i = .setReg x nn ∧ exec i s = .next (State.writeReg s x nn)) ∨
    (∃ x nn, i = .addToReg x nn ∧ exec i s = .next (State.writeReg s x (State.readReg s x + nn))) ∨
    (∃ nnn, i = .setIndex nnn ∧ exec i s = .next (State.setIndex s nnn)) ∨
    (∃ x y n rows, i = .display x y n ∧
      exec i s = .next (drawSprite s (anchorCol (State.readReg s x)) (anchorRow (State.readReg s y)) rows) ∧
      rows.length = min (drawHeight n (anchorRow (State.readReg s y))) (4096 - s.index.toNat) ∧
      ∀ k, k < rows.length → rows[k]? = some (Memory.byte s.mem (s.index.toNat + k))) ∨
    (∃ w, i = .unsupported w ∧ exec i s = .next (State.haltUnsupported s w)) := by
  have h := execWith_cases hardwareBuild i s
  have hd : ∀ n, (hardwareBuild.stackDepth = some n) = (n = 16) := fun n => by simp [hardwareBuild, eq_comm]
  have he : execWith hardwareBuild i s = exec i s := execWith_hardware i s
  simp only [ne_eq, hd, he] at h
  exact h

/-! ### The load port and the fetch word -/

theorem loadImage_ok {img : List Byte} (h : img.length ≤ 3584) {pw : Nat} (s : State pw) :
    loadImage img s = .next { s with mem := Memory.putAll s.mem 0x200 img } := by
  simp [loadImage, h]

theorem loadImage_wf {img : List Byte} {pw : Nat} {s t : State pw} (hs : Memory.wf s.mem = true) (h : loadImage img s = .next t) :
    Memory.wf t.mem = true := by
  unfold loadImage at h
  split at h
  · next hlen =>
    cases h
    exact Memory.putAll_wf hs (by simp only [loadAddr, memSize, maxImage] at *; omega)
  · cases h

theorem readyToFetch_pc (s : State) :
    0x200 ≤ (readyToFetch s).pc.toNat ∧ (readyToFetch s).pc.toNat ≤ 0xFFE ∧ (readyToFetch s).pc.toNat % 2 = 0 := by
  unfold readyToFetch
  by_cases h : pcFetchable s.pc = true
  · simp only [h, if_true]
    rw [pcFetchable, misaligned_hardware, Bool.and_eq_true, Bool.not_eq_true', Bool.not_eq_true', decide_eq_false_iff_not] at h
    have hb : ¬ (s.pc.toNat < 0x200 ∨ 0xFFE < s.pc.toNat) := fun hh => by simp [(fetchFails_iff _).2 hh] at h
    omega
  · simp [h]

end Sys2Proof.Machine
end

