-- ==== Sys2Proof/Tests/Slice0.lean ====
section
/-! SUPPORT. Tests: decoding of words written out from the spec's patterns, one-step vectors of 95_test_vectors.md, the
refusal of an ill-formed instruction, and a witness for every statement that has hypotheses. -/

namespace Sys2Proof.Tests

open Sys2Proof.Machine

/-- Does the outcome give a next state that passes `p`? -/
def nextHas {pw : Nat} (o : Host.Outcome (State pw) Fault Refusal) (p : State pw → Bool) : Bool :=
  match o with
  | .next s => p s
  | .fault _ => false
  | .refused _ => false

theorem next_of_nextHas {pw : Nat} {o : Host.Outcome (State pw) Fault Refusal} {p : State pw → Bool} (h : nextHas o p = true) :
    ∃ t, o = .next t ∧ p t = true := by
  cases o with
  | next t => exact ⟨t, rfl, h⟩
  | fault _ => cases h
  | refused _ => cases h

/-- A small state: PC, memory bytes at one address, two registers. -/
def small (pc : Word) (a : Nat) (bytes : List Byte) (x : Nibble) (vx : Byte) (y : Nibble) (vy : Byte) : State :=
  { State.writeReg (State.writeReg State.reset x vx) y vy with pc := pc, mem := Memory.putAll [] a bytes }

/-- `small` with I = 0x300 and the sprite bytes there, the instruction's effect run with the PC at 0x302. -/
def sprite (bytes : List Byte) (x : Nibble) (vx : Byte) (y : Nibble) (vy : Byte) : State :=
  { small 0x302#16 0x300 bytes x vx y vy with index := 0x300#12 }

/-- The state with one cell on. -/
def lit (s : State) (r c : Nat) : State := { s with fb := Framebuffer.setCell s.fb r c true }

/-- How many cells are on. -/
def cellsOn (s : State) : Nat := (s.fb.toList.map fun row => row.toList.count true).sum

/-! ## Decoding, one word or more for each row (95_test_vectors.md L1.2, L2 "Decoder") -/

theorem test_decode_clearScreen : decode 0b0000000011100000#16 = .clearScreen ∧ decode 0x01E0#16 = .clearScreen := by decide
theorem test_decode_leaveSubr : decode 0b0000000011101110#16 = .leaveSubr ∧ decode 0x0FEE#16 = .leaveSubr := by decide
theorem test_decode_jump : decode 0b0001101010111100#16 = .jump 0xABC#12 := by decide
theorem test_decode_enterSubr : decode 0b0010101010111100#16 = .enterSubr 0xABC#12 := by decide
theorem test_decode_skipIfEq : decode 0b0011111100000000#16 = .skipIfEq 15#4 0x00#8 := by decide
theorem test_decode_skipIfNEq : decode 0b0100101001111110#16 = .skipIfNEq 10#4 0x7E#8 := by decide
theorem test_decode_skipIfEqXY : decode 0b0101000100100000#16 = .skipIfEqXY 1#4 2#4 := by decide
theorem test_decode_setReg : decode 0b0110001111111111#16 = .setReg 3#4 0xFF#8 := by decide
theorem test_decode_addToReg : decode 0b0111111100000101#16 = .addToReg 15#4 0x05#8 := by decide
theorem test_decode_skipIfNEqXY : decode 0b1001101010110000#16 = .skipIfNEqXY 10#4 11#4 := by decide
theorem test_decode_setIndex : decode 0b1010000100100011#16 = .setIndex 0x123#12 := by decide
theorem test_decode_display : decode 0b1101000000010101#16 = .display 0#4 1#4 5#4 := by decide

theorem test_decode_unsupported :
    [0x0000#16, 0x00E1#16, 0x0123#16, 0x5121#16, 0x9AB8#16, 0x8123#16, 0xB000#16, 0xC0FF#16, 0xE09E#16, 0xF065#16].all
      (fun w => decode w == .unsupported w) = true := by decide

theorem test_decode_other_parameters :
    decodeWith { hardwareBuild with family0Strict := true } 0x01E0#16 = .unsupported 0x01E0#16 ∧
    decodeWith { hardwareBuild with strictLowNibble59 := false } 0x512F#16 = .skipIfEqXY 1#4 2#4 := by decide

theorem test_decodeTableWord : decodeTableWord 16 0xD015 = some (.display 0#4 1#4 5#4) := by decide

/-- 20_memory.md R41: bytes `[0x61, 0x02]` fetch as 0x6102. -/
theorem test_fetch_big_endian : Memory.fetch16 (Memory.putAll [] 0x200 [0x61#8, 0x02#8]) 0x200 = .ok 0x6102#16 := by rfl

/-- The smoke test of the well-formedness check: `Unsupported` on a word that a row matches is refused. -/
theorem test_wf_refuses_a_known_word :
    (Instr.unsupported 0x00E0#16).wf = false ∧ (Instr.unsupported 0xD015#16).wf = false ∧
    (Instr.unsupported 0xFFFF#16).wf = true := by decide

/-! ## One step each (95_test_vectors.md) -/

/-- L1.8. -/
theorem test_clearScreen :
    nextHas (exec .clearScreen (lit (sprite [] 3#4 0x77#8 15#4 1#8) 31 63)) (fun t =>
      cellsOn t == 0 && State.readReg t 3#4 == 0x77#8 && State.readReg t 15#4 == 1#8 && t.events == [.clearAll, .flush])
      = true := by decide

/-- L2 "Control transfer": last in, first out. -/
theorem test_leaveSubr :
    nextHas (exec .leaveSubr { State.reset with stack := [0x202#16, 0x40A#16] }) (fun t =>
      t.stack == [0x202#16] && t.pc == 0x40A#16) = true := by decide

/-- P5. -/
theorem test_leaveSubr_empty :
    nextHas (step (State.withFetchWord State.reset 16 0x00EE)) (fun t =>
      t.run == .aborted .emptyStackPop && t.runState == 3#2 && t.abortReason == 1#3 && t.pc == 0x202#16) = true := by decide

theorem test_jump :
    nextHas (step (State.withFetchWord State.reset 16 0x1ABC)) (fun t => t.pc == 0xABC#16) = true := by decide

theorem test_enterSubr :
    nextHas (step (State.withFetchWord State.reset 16 0x2206)) (fun t =>
      t.stack == [0x202#16] && t.pc == 0x206#16) = true := by decide

theorem test_enterSubr_full :
    nextHas (exec (.enterSubr 0x400#12) { State.reset with stack := List.replicate 16 0x202#16, pc := 0x302#16 })
      (fun t => t.run == .aborted .stackOverflow && t.abortReason == 2#3 && t.pc == 0x302#16 && t.stack.length == 16)
      = true := by decide

theorem test_skipIfEq :
    nextHas (exec (.skipIfEq 2#4 0x42#8) (small 0x302#16 0 [] 2#4 0x42#8 0#4 0#8)) (fun t => t.pc == 0x304#16) = true ∧
    nextHas (exec (.skipIfEq 2#4 0x43#8) (small 0x302#16 0 [] 2#4 0x42#8 0#4 0#8)) (fun t => t.pc == 0x302#16) = true := by
  decide

theorem test_skipIfNEq :
    nextHas (exec (.skipIfNEq 2#4 0x42#8) (small 0x302#16 0 [] 2#4 0x42#8 0#4 0#8)) (fun t => t.pc == 0x302#16) = true ∧
    nextHas (exec (.skipIfNEq 2#4 0x43#8) (small 0x302#16 0 [] 2#4 0x42#8 0#4 0#8)) (fun t => t.pc == 0x304#16) = true := by
  decide

theorem test_skipIfEqXY :
    nextHas (exec (.skipIfEqXY 1#4 2#4) (small 0x302#16 0 [] 1#4 7#8 2#4 7#8)) (fun t => t.pc == 0x304#16) = true ∧
    nextHas (exec (.skipIfEqXY 1#4 2#4) (small 0x302#16 0 [] 1#4 7#8 2#4 8#8)) (fun t => t.pc == 0x302#16) = true := by
  decide

theorem test_skipIfNEqXY :
    nextHas (exec (.skipIfNEqXY 1#4 1#4) (small 0x302#16 0 [] 1#4 7#8 2#4 8#8)) (fun t => t.pc == 0x302#16) = true ∧
    nextHas (exec (.skipIfNEqXY 1#4 2#4) (small 0x302#16 0 [] 1#4 7#8 2#4 8#8)) (fun t => t.pc == 0x304#16) = true := by
  decide

theorem test_setReg_vf :
    nextHas (step (State.withFetchWord State.reset 16 0x6FAB)) (fun t => State.readReg t 15#4 == 0xAB#8) = true := by decide

/-- The carry is lost and VF stays. -/
theorem test_addToReg_wraps :
    nextHas (exec (.addToReg 3#4 0xFF#8) (small 0x302#16 0 [] 3#4 0xFF#8 15#4 0x55#8)) (fun t =>
      State.readReg t 3#4 == 0xFE#8 && State.readReg t 15#4 == 0x55#8) = true := by decide

theorem test_setIndex :
    nextHas (step (State.withFetchWord State.reset 16 0xAFFF)) (fun t => t.index == 0xFFF#12) = true := by decide

/-- DS10: clipped at the right edge, bit 0 discarded, no wrap to column 0. -/
theorem test_display_clips :
    nextHas (exec (.display 0#4 1#4 1#4) (sprite [0xFF#8] 0#4 57#8 1#4 0#8)) (fun t =>
      cellsOn t == 7 && Framebuffer.cell t.fb 0 57 && Framebuffer.cell t.fb 0 63 && !Framebuffer.cell t.fb 0 0 &&
      State.readReg t 15#4 == 0#8 && t.events.length == 8) = true := by decide

/-- DS12: the anchor is VF's old value; DS15's accumulation is in `test_display_accumulates`. -/
theorem test_display_samples_vf :
    nextHas (exec (.display 15#4 1#4 1#4) (sprite [0x80#8] 15#4 10#8 1#4 0#8)) (fun t =>
      Framebuffer.cell t.fb 0 10 && State.readReg t 15#4 == 0#8) = true := by decide

/-- DS15: row 0 collides, row 1 does not, VF stays 1. -/
theorem test_display_accumulates :
    nextHas (exec (.display 0#4 1#4 2#4) (lit (sprite [0x80#8, 0x80#8] 0#4 0#8 1#4 0#8) 0 0)) (fun t =>
      !Framebuffer.cell t.fb 0 0 && Framebuffer.cell t.fb 1 0 && State.readReg t 15#4 == 1#8) = true := by decide

/-- DS7: one row only at the end of memory. -/
theorem test_display_end_of_memory :
    nextHas (exec (.display 0#4 1#4 15#4)
      { small 0x302#16 0xFFF [0xAA#8] 0#4 0#8 1#4 0#8 with index := 0xFFF#12 }) (fun t =>
      cellsOn t == 4 && Framebuffer.cell t.fb 0 6 && t.events.length == 9) = true := by decide

/-- L1.7, step 3. -/
theorem test_unsupported :
    nextHas (step { State.withFetchWord State.reset 16 0xFFFF with pc := 0x200#16 }) (fun t =>
      t.run == .haltedUnsupported && t.runState == 2#2 && t.haltWord == 0xFFFF#16 && t.haltAddr == 0x200#16 &&
      t.pc == 0x202#16) = true := by decide

/-- L2 "Step and fetch": 0xFFF is out of bounds before it is odd; 0x201 is odd. -/
theorem test_fetch_checks :
    nextHas (step { State.reset with pc := 0xFFF#16 }) (fun t => t.run == .programEnd && t.pc == 0xFFF#16) = true ∧
    nextHas (step { State.reset with pc := 0x201#16 }) (fun t =>
      t.run == .aborted .misalignedPC && t.abortReason == 3#3 && t.pc == 0x201#16) = true := by decide

/-- L2 "Step and fetch": the same odd PC under `MISALIGNED_PC_POLICY = fetch`. -/
theorem test_fetch_policy :
    nextHas (stepWith { hardwareBuild with misalignedPc := .fetch } (small 0x201#16 0x201 [0x60#8, 0x09#8] 0#4 0#8 1#4 0#8))
      (fun t => State.readReg t 0#4 == 9#8 && t.pc == 0x203#16) = true := by decide

/-- The parameters with the narrowest `PC_WIDTH` that the spec takes. -/
def narrow : Config := ⟨13, some 16, .abort, true, false, .zero, .zero⟩

/-- 92_eei_decisions.md D2: a call with a 13-bit PC. -/
theorem test_pc_width_13 :
    nextHas (pw := 13) (stepWith narrow (State.atPcWidth 13 (small 0xFFE#16 0xFFE [0x22#8, 0x06#8] 0#4 0#8 1#4 0#8)))
      (fun t => t.stack == [0x1000#13] && t.pc == 0x206#13) = true := by decide

/-- 30_encoding.md R84's syntax. -/
theorem test_asm_text : (Instr.skipIfEq 15#4 0x0F#8).text = "SkipIfEq VF, 0x0F" := by decide

/-! ## Witnesses: each statement's hypotheses are met together -/

/-- A state about to fetch the word `w` at `pc`. -/
def ready (pc : Word) (hi lo : Byte) : State := small pc pc.toNat [hi, lo] 0#4 60#8 1#4 0#8

theorem witness_ResetVectorIsTheLoadAddress :
    (List.replicate 3582 (0#8 : Byte)).length ≤ 3582 ∧ 10 ≤ hardwareBuild.pcWidth ∧
    10 ≤ ({ hardwareBuild with pcWidth := 10 } : Config).pcWidth :=
  ⟨Nat.le_of_eq List.length_replicate, by decide, by decide⟩

theorem witness_LoadPortPlacesTheImageOrRefusesIt :
    (List.replicate 3584 (0#8 : Byte)).length ≤ 3584 ∧ 3584 < (List.replicate 3585 (0#8 : Byte)).length ∧
    HostAction.assertReset ∉ [HostAction.releaseReset, .activate] ∧ (Block.mk .released State.reset).phase = .released := by
  refine ⟨Nat.le_of_eq List.length_replicate, ?_, by decide, rfl⟩
  rw [List.length_replicate]
  decide

theorem witness_HeldBlockTakesNoStep :
    (Block.inReset hardwareBuild).phase ≠ .released ∧
    HostAction.releaseReset ∉ [HostAction.load [1#8], .activate] ∧
    HostAction.assertReset ∉ [HostAction.load [1#8], .activate] := by decide

/-- The ready states meet the invariant. -/
theorem ready_inv : Inv (ready 0x200#16 0xD0#8 0x15#8) where
  mem_wf := by decide
  run_code := by decide
  abort_code := by decide
  halt_record := by unfold HaltRecord; decide
  cause := by unfold TerminalCause; trivial
  stack_bound := by decide
  stack_entries := by intro e he; cases he
  pc_bound := by decide
  events_in_grid := by intro r c b h; cases h
  events_flushed := .inl rfl

theorem witness_StepKeepsTheInvariant :
    Inv (ready 0x200#16 0xD0#8 0x15#8) ∧ ∃ t, step (ready 0x200#16 0xD0#8 0x15#8) = .next t := by
  obtain ⟨t, h, _⟩ := next_of_nextHas (o := step (ready 0x200#16 0xD0#8 0x15#8)) (p := fun _ => true) (by decide)
  exact ⟨ready_inv, t, h⟩

/-- A word in each family clause. -/
theorem witness_DecoderFollowsTheFamilies :
    (0x01E0#16).toNat / 4096 = 0x0 ∧ (0x1FFF#16).toNat / 4096 = 0x1 ∧ (0x2FFF#16).toNat / 4096 = 0x2 ∧
    (0x3FFF#16).toNat / 4096 = 0x3 ∧ (0x4FFF#16).toNat / 4096 = 0x4 ∧ (0x5FF1#16).toNat / 4096 = 0x5 ∧
    (0x6FFF#16).toNat / 4096 = 0x6 ∧ (0x7FFF#16).toNat / 4096 = 0x7 ∧ (0x9FFF#16).toNat / 4096 = 0x9 ∧
    (0xAFFF#16).toNat / 4096 = 0xA ∧ (0xDFFF#16).toNat / 4096 = 0xD ∧ (0x8000#16).toNat / 4096 = 0x8 ∧
    (0xB000#16).toNat / 4096 = 0xB ∧ (0xC000#16).toNat / 4096 = 0xC ∧ (0xE000#16).toNat / 4096 = 0xE ∧
    (0xFFFF#16).toNat / 4096 = 0xF := by decide

theorem witness_DecodeOfEncodeIsTheInstruction :
    (Instr.display 15#4 15#4 15#4).wfWith hardwareBuild = true ∧
    (Instr.unsupported 0xFFFF#16).wfWith hardwareBuild = true ∧ ([0x60#8] : List Byte).length < 2 := by decide

theorem witness_EncodeOfDecodeIsTheWord :
    decode 0x63FF#16 ≠ .clearScreen ∧ decode 0x63FF#16 ≠ .leaveSubr ∧ decode 0x01E0#16 = .clearScreen := by decide

theorem witness_TableLookupAgreesWithTheDecoderInAnyOrder :
    (opcodeTable hardwareBuild).reverse.Perm (opcodeTable hardwareBuild) := List.reverse_perm _

theorem witness_AssembledInstructionsAreFetchedInOrder :
    (∀ i ∈ [Instr.setReg 0#4 5#8, .unsupported 0xFFFF#16], i.wf = true) ∧
    [Instr.setReg 0#4 5#8, .unsupported 0xFFFF#16].length ≤ 1792 ∧
    [Instr.setReg 0#4 5#8, .unsupported 0xFFFF#16][1]? = some (.unsupported 0xFFFF#16) := by decide

/-- The first and the last address an instruction is fetched from. Meets the hypotheses of StepRunsTheDecodedInstruction,
StepRunsTheEncodedInstruction, JumpSetsThePcToItsTarget and PlacedFetchWordIsFetchedNext. -/
theorem witness_FetchesWord :
    FetchesWord (ready 0x200#16 0x12#8 0x00#8) 0x1200#16 ∧ FetchesWord (ready 0xFFE#16 0x61#8 0x07#8) 0x6107#16 ∧
    (Instr.setReg 1#4 7#8).wf = true ∧ encode (.setReg 1#4 7#8) = 0x6107#16 ∧
    (ready 0x200#16 0x12#8 0x00#8).pc.toNat = (0x200#12).toNat ∧
    Memory.wf (ready 0x200#16 0x12#8 0x00#8).mem = true := by
  unfold FetchesWord; decide

/-- Both bounds, from inside and outside the address space. -/
theorem witness_FetchOutOfBoundsEndsTheProgram :
    State.reset.run = .running ∧ (0x1FF#16).toNat < 0x200 ∧ 0xFFE < (0xFFF#16).toNat ∧ 0xFFE < (0x1002#16).toNat := by
  decide

/-- The lowest and the highest odd PC, with the word there. -/
theorem witness_OddPcFollowsThePolicy :
    let s := small 0x201#16 0x201 [0x60#8, 0x09#8] 0#4 0#8 1#4 0#8
    s.run = .running ∧ 0x200 ≤ s.pc.toNat ∧ s.pc.toNat ≤ 0xFFE ∧ s.pc.toNat % 2 = 1 ∧
    ({ hardwareBuild with misalignedPc := .fetch } : Config).misalignedPc = .fetch ∧ hardwareBuild.misalignedPc = .abort ∧
    (0x6009#16).toNat = (Memory.byte s.mem s.pc.toNat).toNat * 256 + (Memory.byte s.mem (s.pc.toNat + 1)).toNat ∧
    (0xFFD#16).toNat ≤ 0xFFE ∧ (0xFFD#16).toNat % 2 = 1 := by decide

theorem witness_TerminalStatesAreAbsorbing :
    (State.haltProgramEnd State.reset).run ≠ .running := by decide

theorem witness_EndedBlockIgnoresTheHostUntilReset :
    (State.haltProgramEnd State.reset).run ≠ .running ∧ (Block.mk .released (State.haltProgramEnd State.reset)).phase = .released ∧
    HostAction.assertReset ∉ [HostAction.activate, .load [1#8]] := by decide

theorem witness_EndsAreNormalOrFaultedNeverBoth :
    NormalEnd (State.haltProgramEnd State.reset) ∧ Faulted (State.raiseAbort State.reset .misalignedPC) :=
  ⟨.inl rfl, .misalignedPC, rfl⟩

/-- One running state for each outcome of the priority rule. -/
theorem witness_OutcomeOfAStepFollowsThePriority :
    (FetchesWord (ready 0x200#16 0xFF#8 0xFF#8) 0xFFFF#16 ∧ decode 0xFFFF#16 = .unsupported 0xFFFF#16) ∧
    (FetchesWord (ready 0x200#16 0x00#8 0xEE#8) 0x00EE#16 ∧ decode 0x00EE#16 = .leaveSubr) ∧
    (FetchesWord (ready 0x200#16 0x24#8 0x00#8) 0x2400#16 ∧ decode 0x2400#16 = .enterSubr 0x400#12) ∧
    (FetchesWord (ready 0xFFE#16 0x61#8 0x07#8) 0x6107#16 ∧ decode 0x6107#16 = .setReg 1#4 7#8) ∧
    (ready 0xFFF#16 0#8 0#8).run = .running ∧ (ready 0x201#16 0#8 0#8).run = .running := by
  unfold FetchesWord; decide

theorem witness_AbortRecordsItsReasonAndNothingElse :
    (ready 0x200#16 0x00#8 0xEE#8).run = .running ∧
    ∃ t, step (ready 0x200#16 0x00#8 0xEE#8) = .next t ∧ t.run = .aborted .emptyStackPop := by
  obtain ⟨t, h, hp⟩ := next_of_nextHas (o := step (ready 0x200#16 0x00#8 0xEE#8))
    (p := fun t => t.run == .aborted .emptyStackPop) (by decide)
  exact ⟨rfl, t, h, by simpa using hp⟩

/-- A step that fetches and answers: for the statements about a step's next state (PcAfterAStepFollowsTheTable,
EachStateHasItsWritersOnly, EveryEventSequenceEndsWithFlush, SinkStreamIsNeverReadBack, StatusOutputsAreNeverRead). -/
theorem witness_PcAfterAStepFollowsTheTable :
    FetchesWord (ready 0xFFE#16 0x30#8 0x3C#8) 0x303C#16 ∧ ∃ t, step (ready 0xFFE#16 0x30#8 0x3C#8) = .next t ∧
      (t.pc == 0x1002#16) = true := by
  obtain ⟨t, h, hp⟩ := next_of_nextHas (o := step (ready 0xFFE#16 0x30#8 0x3C#8)) (p := fun t => t.pc == 0x1002#16)
    (by decide)
  exact ⟨by unfold FetchesWord; decide, t, h, hp⟩

theorem witness_UnsupportedHaltsAndRecordsTheWord :
    FetchesWord (ready 0x200#16 0xFF#8 0xFF#8) 0xFFFF#16 ∧ decode 0xFFFF#16 = .unsupported 0xFFFF#16 := by
  unfold FetchesWord; decide

theorem witness_LeaveSubrPopsIntoThePcOrAborts :
    State.reset.stack = [] ∧ ({ State.reset with stack := [0x202#16] } : State).stack = [] ++ [0x202#16] ∧
    State.reset.run = .running := by decide

/-- A full stack, one entry less, and a self-call at 0x200 with room for exactly one more entry. -/
theorem witness_EnterSubrPushesAndJumpsOrAborts :
    (List.replicate 16 0x202#16).length = 16 ∧ (List.replicate 15 0x202#16).length ≠ 16 ∧
    hardwareBuild.stackDepth = some (List.replicate 16 0x202#16).length ∧
    hardwareBuild.stackDepth ≠ some (List.replicate 15 0x202#16).length ∧
    FetchesWord { ready 0x200#16 0x22#8 0x00#8 with stack := List.replicate 15 0x202#16 } 0x2200#16 ∧
    hardwareBuild.stackDepth = some ((List.replicate 15 0x202#16).length + 1) := by
  unfold FetchesWord; decide

theorem witness_ReturnUndoesTheCall :
    State.reset.stack.length ≠ 16 ∧ ∃ t m : State, exec (.enterSubr 0x300#12) State.reset = .next t ∧ m.stack = t.stack :=
  ⟨by decide, _, _, exec_enterSubr_push 0x300#12 (by decide), rfl⟩

theorem witness_UnboundedStackNeverOverflows :
    ({ hardwareBuild with stackDepth := none } : Config).stackDepth = none ∧ State.reset.run ≠ .aborted .stackOverflow ∧
    ∃ t, runWith { hardwareBuild with stackDepth := none } 1 (ready 0x200#16 0x22#8 0x00#8) = .next t := by
  obtain ⟨t, h, _⟩ := next_of_nextHas (p := fun _ => true)
    (o := runWith { hardwareBuild with stackDepth := none } 1 (ready 0x200#16 0x22#8 0x00#8)) (by decide)
  exact ⟨rfl, by decide, t, h⟩

theorem witness_RegisterSkipsCompareTheRegisters : (0 < 1 ∧ 1 < 16) ∧ (0 < 15 ∧ 15 < 16) := by decide

/-- One fetched skip of each kind, its condition true and false, and the last two addresses. -/
theorem witness_TakenSkipsPassOverTheNextWord :
    FetchesWord (ready 0xFFC#16 0x30#8 0x3C#8) 0x303C#16 ∧ State.readReg (ready 0xFFC#16 0x30#8 0x3C#8) 0#4 = 0x3C#8 ∧
    FetchesWord (ready 0x300#16 0x40#8 0x3C#8) 0x403C#16 ∧
    FetchesWord (ready 0x300#16 0x50#8 0x10#8) 0x5010#16 ∧
    State.readReg (ready 0x300#16 0x50#8 0x10#8) 0#4 ≠ State.readReg (ready 0x300#16 0x50#8 0x10#8) 1#4 ∧
    FetchesWord (ready 0xFFE#16 0x90#8 0x10#8) 0x9010#16 := by
  unfold FetchesWord; decide

/-- Two draws in a row at column 60, over a lit cell. Meets the hypotheses of DrawingTwiceRestoresTheGrid. -/
theorem witness_DrawingTwiceRestoresTheGrid :
    let s := lit (sprite (List.replicate 8 0xFF#8) 0#4 60#8 1#4 0#8) 0 60
    (State.readReg s 0#4).toNat % 64 = 60 ∧
    Framebuffer.cell s.fb 0 60 = true ∧ displayBit s 0#4 1#4 8#4 0 60 = true ∧
    displayBit s 0#4 1#4 8#4 0 61 = true ∧ Framebuffer.cell s.fb 0 61 = false ∧
    ∃ t u, exec (.display 0#4 1#4 8#4) s = .next t ∧ exec (.display 0#4 1#4 8#4) t = .next u := by
  refine ⟨by decide, by decide, by decide, by decide, by decide, ?_⟩
  have draws : ∀ s, ∃ t, exec (.display 0#4 1#4 8#4) s = .next t := fun s =>
    (execDisplay_next 0#4 1#4 8#4 s).elim fun _ h => ⟨_, h.1⟩
  obtain ⟨t, h⟩ := draws (lit (sprite (List.replicate 8 0xFF#8) 0#4 60#8 1#4 0#8) 0 60)
  obtain ⟨u, h'⟩ := draws t
  exact ⟨t, u, h, h'⟩

/-- The same hypotheses with x = y = 15: a first draw without a collision leaves VF and the anchor at 0. -/
theorem witness_DrawingTwiceRestoresTheGrid_vf :
    nextHas (exec (.display 15#4 15#4 1#4) (sprite [0x80#8] 0#4 0#8 1#4 0#8)) (fun t =>
      (State.readReg t 15#4).toNat % 64 == 0 && nextHas (exec (.display 15#4 15#4 1#4) t) (fun _ => true)) = true := by decide

theorem witness_RegisterInstructionsFrame :
    (∃ x nn, Instr.setReg 0#4 1#8 = .setReg x nn) ∧ (∃ x nn, Instr.addToReg 0#4 1#8 = .addToReg x nn) ∧
    (∃ nnn, Instr.setIndex 0#12 = .setIndex nnn) ∧ ∃ t, exec (.setReg 0#4 1#8) State.reset = .next t :=
  ⟨⟨_, _, rfl⟩, ⟨_, _, rfl⟩, ⟨_, rfl⟩, _, rfl⟩

theorem witness_ControlTransfersFrame :
    ∃ t u, exec (.jump 0x300#12) State.reset = .next t ∧ exec (.enterSubr 0x300#12) State.reset = .next u ∧
      State.reset.stack.length ≠ 16 :=
  ⟨_, _, rfl, exec_enterSubr_push 0x300#12 (by decide), by decide⟩

/-- A clear and a draw, with a cell outside the drawn rectangle. -/
theorem witness_DisplayInstructionsFrame :
    let s := sprite [0x80#8] 0#4 60#8 1#4 0#8
    (∃ t, exec .clearScreen s = .next t) ∧ (∃ t, exec (.display 0#4 1#4 1#4) s = .next t) ∧
    inSprite 1#4 ((State.readReg s 1#4).toNat % 32) ((State.readReg s 0#4).toNat % 64) s.index.toNat 0 59 = false := by
  obtain ⟨rows, h, _⟩ := execDisplay_next 0#4 1#4 1#4 (sprite [0x80#8] 0#4 60#8 1#4 0#8)
  exact ⟨⟨_, rfl⟩, ⟨_, h⟩, by decide⟩

theorem witness_UnsupportedFrame : ∃ t, exec (.unsupported 0xFFFF#16) State.reset = .next t := ⟨_, rfl⟩

theorem witness_NoInstructionWritesMemory :
    (∃ t, exec (.setReg 0#4 1#8) State.reset = .next t) ∧ ∃ t, Host.Core.run Sys2Proof.core 1 (ready 0x200#16 0xD0#8 0x15#8) = .next t := by
  obtain ⟨t, h, _⟩ := next_of_nextHas (p := fun _ => true)
    (o := Host.Core.run Sys2Proof.core 1 (ready 0x200#16 0xD0#8 0x15#8)) (by decide)
  exact ⟨⟨_, rfl⟩, t, h⟩

/-- One step that writes each kind of state: a register, I, the grid, the stack. -/
theorem witness_EachStateHasItsWritersOnly :
    nextHas (step (ready 0x200#16 0x61#8 0x07#8)) (fun t => State.readReg t 1#4 != State.readReg State.reset 1#4) = true ∧
    nextHas (step (ready 0x200#16 0xA1#8 0x23#8)) (fun t => t.index != State.reset.index) = true ∧
    nextHas (step { ready 0x200#16 0xD0#8 0x11#8 with index := 0x200#12 }) (fun t =>
      Framebuffer.cell t.fb 0 60 != Framebuffer.cell State.reset.fb 0 60) = true ∧
    nextHas (step (ready 0x200#16 0x22#8 0x06#8)) (fun t => t.stack != State.reset.stack) = true := by decide

/-- A step that fetches no `Display`. -/
theorem witness_IndexAndGridAreReadByDisplayOnly :
    (∃ t, step State.reset = .next t) ∧ ∀ w, FetchesWord State.reset w → ∀ x y n, decode w ≠ .display x y n := by
  obtain ⟨t, h, _⟩ := next_of_nextHas (p := fun _ => true) (o := step State.reset) (by decide)
  refine ⟨⟨t, h⟩, fun w hw x y n => ?_⟩
  have h0 : w = 0x0000#16 := BitVec.eq_of_toNat_eq hw.2.2.2.2
  subst h0
  simp [show decode 0x0000#16 = .unsupported 0x0000#16 from by decide]

/-- The narrowest width, at reset, at the largest PC and return address, and in a run of one step. -/
theorem witness_PcWidthIsUnobservableFrom13Bits :
    13 ≤ narrow.pcWidth ∧ 13 ≤ hardwareBuild.pcWidth ∧ PcInRange State.reset ∧
    PcInRange { State.reset with pc := 0x1002#16, stack := [0x1000#16] } ∧
    nextHas (pw := 13) (runWith narrow 1 (State.atPcWidth 13 (ready 0xFFE#16 0x61#8 0x07#8))) (fun t =>
      t.pc == 0x1000#13) = true :=
  ⟨by decide, by decide, ⟨by decide, fun _ he => by cases he⟩,
    ⟨by decide, fun _ he => by rw [List.mem_singleton.1 he]; decide⟩, by decide⟩

end Sys2Proof.Tests
end

section
/-! PROOFS. Reset and boot: the reset PC, the booted state, and the first word it fetches (10_state.md R28). -/

namespace Sys2Proof.Machine

/-- 10_state.md R28, at every width that holds the number 0x200. -/
theorem resetWith_pc_toNat {c : Config} (hw : 10 ≤ c.pcWidth) : (State.resetWith c).pc.toNat = 0x200 := by
  have hpow : 2 ^ 10 ≤ 2 ^ c.pcWidth := Nat.pow_le_pow_right (by decide) hw
  calc (State.resetWith c).pc.toNat
      = 0x200 % 2 ^ c.pcWidth := BitVec.toNat_ofNat ..
    _ = 0x200 := Nat.mod_eq_of_lt (by omega)

theorem resetWith_run (c : Config) : (State.resetWith c).run = .running := rfl

/-- The state a boot leaves when the image fits: reset, with the image in memory (70_reset_and_hazards.md R192, R193). -/
def bootedWith (c : Config) (img : List Byte) : State c.pcWidth :=
  { State.resetWith c with mem := Memory.putAll (resetMem c) 0x200 img }

theorem bootWith_eq_bootedWith (c : Config) {img : List Byte} (h : img.length ≤ 3584) :
    bootWith c img = .next (bootedWith c img) :=
  loadImage_ok h (State.resetWith c)

theorem bootedWith_pc_toNat {c : Config} (hw : 10 ≤ c.pcWidth) (img : List Byte) : (bootedWith c img).pc.toNat = 0x200 :=
  resetWith_pc_toNat hw

theorem bootedWith_run (c : Config) (img : List Byte) : (bootedWith c img).run = .running := resetWith_run c

/-- Inside the image, memory holds the image's bytes (70_reset_and_hazards.md R193). -/
theorem byte_bootedWith (c : Config) {img : List Byte} (h : img.length ≤ 3584) {i : Nat} (hlt : i < img.length) :
    Memory.byte (bootedWith c img).mem (0x200 + i) = img[i] := by
  have hfit : 0x200 + img.length ≤ memSize := by simp only [memSize]; omega
  calc Memory.byte (bootedWith c img).mem (0x200 + i)
      = img.getD i (Memory.byte (resetMem c) (0x200 + i)) := by
        simp [bootedWith, Memory.byte_putAll (resetMem_wf c) hfit]
    _ = img[i] := by simp [hlt]

/-- The first fetch after a boot reads the image's first two bytes, the first of them high (20_memory.md R41). -/
theorem bootedWith_fetchesWord {c : Config} (hw : 10 ≤ c.pcWidth) (hi lo : Byte) {rest : List Byte}
    (h : (hi :: lo :: rest).length ≤ 3584) : FetchesWord (bootedWith c (hi :: lo :: rest)) (bigEndian hi lo) := by
  have hpc := bootedWith_pc_toNat hw (hi :: lo :: rest)
  have hhi : Memory.byte (bootedWith c (hi :: lo :: rest)).mem 0x200 = hi := byte_bootedWith c h (i := 0) (by simp)
  have hlo : Memory.byte (bootedWith c (hi :: lo :: rest)).mem 0x201 = lo := byte_bootedWith c h (i := 1) (by simp)
  have hfetch := fetchesWord_bigEndian (bootedWith_run c (hi :: lo :: rest)) (by omega) (by omega) (by omega)
  rwa [hpc, hhi, hlo] at hfetch

theorem bigEndian_eq_ofNat (hi lo : Byte) : bigEndian hi lo = BitVec.ofNat 16 (hi.toNat * 256 + lo.toNat) := by
  rw [← bigEndian_toNat, BitVec.ofNat_toNat, BitVec.setWidth_eq]

end Sys2Proof.Machine

open Sys2Proof Sys2Proof.Machine in
/-- Settles O1: the booted state has the reset PC, and the image's first two bytes lie there. -/
theorem resetVectorIsTheLoadAddress : Obligations.ResetVectorIsTheLoadAddress := by
  refine ⟨rfl, fun c hw => resetWith_pc_toNat hw, fun hi lo rest hrest => ?_⟩
  have hlen : (hi :: lo :: rest).length ≤ 3584 := by simp only [List.length_cons]; omega
  refine ⟨bootedWith hardwareBuild (hi :: lo :: rest), bootWith_eq_bootedWith hardwareBuild hlen, ?_⟩
  rw [← bigEndian_eq_ofNat]
  exact bootedWith_fetchesWord (by decide) hi lo hlen
end

section
/-! PROOFS. The decoder: one equation per family of the dispatch (30_encoding.md R66 to R74), the fields read by division
(R62), and the document's literal words (R79). -/

namespace Sys2Proof

/-! ### The fields as numbers -/

theorem familyOf_of_div {w : Word} {k : Nat} (h : w.toNat / 4096 = k) : familyOf w = BitVec.ofNat 4 k := by
  rw [← h, ← familyOf_toNat, BitVec.ofNat_toNat, BitVec.setWidth_eq]

theorem fieldX_eq_ofNat (w : Word) : fieldX w = BitVec.ofNat 4 (w.toNat / 256 % 16) := by
  rw [← fieldX_toNat, BitVec.ofNat_toNat, BitVec.setWidth_eq]

theorem fieldY_eq_ofNat (w : Word) : fieldY w = BitVec.ofNat 4 (w.toNat / 16 % 16) := by
  rw [← fieldY_toNat, BitVec.ofNat_toNat, BitVec.setWidth_eq]

theorem fieldN_eq_ofNat (w : Word) : fieldN w = BitVec.ofNat 4 (w.toNat % 16) := by
  rw [← fieldN_toNat, BitVec.ofNat_toNat, BitVec.setWidth_eq]

theorem fieldNN_eq_ofNat (w : Word) : fieldNN w = BitVec.ofNat 8 (w.toNat % 256) := by
  rw [← fieldNN_toNat, BitVec.ofNat_toNat, BitVec.setWidth_eq]

theorem fieldNNN_eq_ofNat (w : Word) : fieldNNN w = BitVec.ofNat 12 (w.toNat % 4096) := by
  rw [← fieldNNN_toNat, BitVec.ofNat_toNat, BitVec.setWidth_eq]

theorem lowNibbleRefused_iff (c : Config) (w : Word) :
    lowNibbleRefused c w = true ↔ c.strictLowNibble59 = true ∧ w.toNat % 16 ≠ 0 := by
  simp [lowNibbleRefused, ← BitVec.toNat_inj, fieldN_toNat]

/-- Family 0x0 by its low byte and, under `FAMILY0_STRICT`, its bits 11:8 (R66). -/
theorem decodeFamily0_eq (c : Config) (w : Word) :
    decodeFamily0 c w =
      if c.family0Strict = true ∧ w.toNat / 256 % 16 ≠ 0 then .unsupported w
      else if w.toNat % 256 = 0xE0 then .clearScreen else if w.toNat % 256 = 0xEE then .leaveSubr else .unsupported w := by
  simp [decodeFamily0, ← BitVec.toNat_inj, fieldX_toNat, fieldNN_toNat]

/-! ### One equation per family -/

section
variable {c : Config} {w : Word}

theorem decodeWith_family0 (h : familyOf w = 0x0#4) : decodeWith c w = decodeFamily0 c w := by simp [decodeWith, h]

theorem decodeWith_family1 (h : familyOf w = 0x1#4) : decodeWith c w = .jump (fieldNNN w) := by simp [decodeWith, h]

theorem decodeWith_family2 (h : familyOf w = 0x2#4) : decodeWith c w = .enterSubr (fieldNNN w) := by simp [decodeWith, h]

theorem decodeWith_family3 (h : familyOf w = 0x3#4) : decodeWith c w = .skipIfEq (fieldX w) (fieldNN w) := by
  simp [decodeWith, h]

theorem decodeWith_family4 (h : familyOf w = 0x4#4) : decodeWith c w = .skipIfNEq (fieldX w) (fieldNN w) := by
  simp [decodeWith, h]

theorem decodeWith_family5 (h : familyOf w = 0x5#4) :
    decodeWith c w =
      if c.strictLowNibble59 = true ∧ w.toNat % 16 ≠ 0 then .unsupported w else .skipIfEqXY (fieldX w) (fieldY w) := by
  simp [decodeWith, h, lowNibbleRefused_iff]

theorem decodeWith_family6 (h : familyOf w = 0x6#4) : decodeWith c w = .setReg (fieldX w) (fieldNN w) := by
  simp [decodeWith, h]

theorem decodeWith_family7 (h : familyOf w = 0x7#4) : decodeWith c w = .addToReg (fieldX w) (fieldNN w) := by
  simp [decodeWith, h]

theorem decodeWith_family9 (h : familyOf w = 0x9#4) :
    decodeWith c w =
      if c.strictLowNibble59 = true ∧ w.toNat % 16 ≠ 0 then .unsupported w else .skipIfNEqXY (fieldX w) (fieldY w) := by
  simp [decodeWith, h, lowNibbleRefused_iff]

theorem decodeWith_familyA (h : familyOf w = 0xA#4) : decodeWith c w = .setIndex (fieldNNN w) := by simp [decodeWith, h]

theorem decodeWith_familyD (h : familyOf w = 0xD#4) : decodeWith c w = .display (fieldX w) (fieldY w) (fieldN w) := by
  simp [decodeWith, h]

/-- The families without an instruction (R74). -/
theorem decodeWith_unsupportedFamily (h : familyOf w ∈ [0x8#4, 0xB#4, 0xC#4, 0xE#4, 0xF#4]) :
    decodeWith c w = .unsupported w := by
  simp only [List.mem_cons, List.not_mem_nil, or_false] at h
  rcases h with h | h | h | h | h <;> simp [decodeWith, h]

end

end Sys2Proof

open Sys2Proof in
/-- Settles O7: the family's equation, with each field turned into its division. -/
theorem decoderFollowsTheFamilies : Obligations.DecoderFollowsTheFamilies := by
  intro c w
  simp only [← fieldX_eq_ofNat, ← fieldY_eq_ofNat, ← fieldN_eq_ofNat, ← fieldNN_eq_ofNat, ← fieldNNN_eq_ofNat]
  refine ⟨fun h => (decodeWith_family0 (familyOf_of_div h)).trans (decodeFamily0_eq c w),
    fun h => decodeWith_family1 (familyOf_of_div h), fun h => decodeWith_family2 (familyOf_of_div h),
    fun h => decodeWith_family3 (familyOf_of_div h), fun h => decodeWith_family4 (familyOf_of_div h),
    fun h => decodeWith_family5 (familyOf_of_div h), fun h => decodeWith_family6 (familyOf_of_div h),
    fun h => decodeWith_family7 (familyOf_of_div h), fun h => decodeWith_family9 (familyOf_of_div h),
    fun h => decodeWith_familyA (familyOf_of_div h), fun h => decodeWith_familyD (familyOf_of_div h), fun h => ?_⟩
  rcases h with h | h | h | h | h <;> exact decodeWith_unsupportedFamily (by rw [familyOf_of_div h]; decide)

open Sys2Proof in
/-- Settles O8: each literal word is in the family of its clause, and its fields compute to the literal operands. -/
theorem decoderGivesTheLiteralCases : Obligations.DecoderGivesTheLiteralCases :=
  ⟨decodeWith_family0 (by decide), decodeWith_family0 (by decide), decodeWith_family1 (by decide),
    decodeWith_family6 (by decide), decodeWith_familyA (by decide), decodeWith_familyD (by decide),
    decodeWith_unsupportedFamily (by decide)⟩
end

section
/-! PROOFS. The execution engine: one equation per way a step can go (40_execution_engine.md R91 to R94), what is left of a
run that has ended (R97), and the halt at an unsupported word (R99). -/

namespace Sys2Proof.Machine

/-! ### One equation per way a step can go -/

theorem misaligned_iff (c : Config) {pw : Nat} (pc : BitVec pw) :
    misaligned c pc = true ↔ pc.toNat % 2 = 1 ∧ c.misalignedPc = .abort := by
  simp [misaligned, BitVec.getLsbD, Nat.testBit_zero]

section
variable {c : Config} {pw : Nat} {d : Instr → State pw → Host.Outcome (State pw) Fault Refusal} {s : State pw}

theorem engineStep_ended (hrun : s.run ≠ .running) : engineStep c d s = .next s := by
  obtain ⟨_, h⟩ | ⟨hr, _⟩ | ⟨hr, _⟩ | ⟨hr, _⟩ := engineStep_cases c d s
  · exact h
  all_goals exact absurd hr hrun

theorem engineStep_outOfBounds (hrun : s.run = .running) (hb : s.pc.toNat < 0x200 ∨ 0xFFE < s.pc.toNat) :
    engineStep c d s = .next (State.haltProgramEnd s) := by
  obtain ⟨hne, _⟩ | ⟨_, _, h⟩ | ⟨_, hlo, hhi, _⟩ | ⟨_, hlo, hhi, _⟩ := engineStep_cases c d s
  · exact absurd hrun hne
  · exact h
  all_goals omega

theorem engineStep_misaligned (hrun : s.run = .running) (hlo : 0x200 ≤ s.pc.toNat) (hhi : s.pc.toNat ≤ 0xFFE)
    (hm : misaligned c s.pc = true) : engineStep c d s = .next (State.raiseAbort s .misalignedPC) := by
  obtain ⟨hne, _⟩ | ⟨_, hb, _⟩ | ⟨_, _, _, _, h⟩ | ⟨_, _, _, hm', _⟩ := engineStep_cases c d s
  · exact absurd hrun hne
  · omega
  · exact h
  · rw [hm] at hm'
    cases hm'

/-- A step that passes both checks runs the word at the PC, seen with the PC past it (R93, R94). -/
theorem engineStep_fetch (hrun : s.run = .running) (hlo : 0x200 ≤ s.pc.toNat) (hhi : s.pc.toNat ≤ 0xFFE)
    (hm : ¬ misaligned c s.pc = true) {w : Word}
    (hw : w.toNat = (Memory.byte s.mem s.pc.toNat).toNat * 256 + (Memory.byte s.mem (s.pc.toNat + 1)).toNat) :
    engineStep c d s = d (decodeWith c w) { s with pc := BitVec.ofNat pw (s.pc.toNat + 2) } := by
  have hword : w = bigEndian (Memory.byte s.mem s.pc.toNat) (Memory.byte s.mem (s.pc.toNat + 1)) :=
    BitVec.eq_of_toNat_eq (hw.trans (bigEndian_toNat _ _).symm)
  obtain ⟨hne, _⟩ | ⟨_, hb, _⟩ | ⟨_, _, _, hm', _⟩ | ⟨_, _, _, _, h⟩ := engineStep_cases c d s
  · exact absurd hrun hne
  · omega
  · exact absurd hm' hm
  · rw [h, ← hword, advance_eq]

end

/-- An even PC passes the alignment check under either policy, so the fetched word runs. -/
theorem step_of_fetchesWord {s : State} {w : Word} (h : FetchesWord s w) :
    step s = exec (decode w) { s with pc := BitVec.ofNat 16 (s.pc.toNat + 2) } := by
  obtain ⟨hrun, hlo, hhi, heven, hw⟩ := h
  have hm : ¬ misaligned hardwareBuild s.pc = true := fun hm => by
    have hodd := ((misaligned_iff _ _).1 hm).1
    omega
  exact engineStep_fetch hrun hlo hhi hm hw

/-! ### Runs from a state that steps to itself -/

theorem coreRun_of_step_self {M : Host.Core} {s : M.State} (h : M.step s = .next s) (k : Nat) : M.run k s = .next s := by
  induction k with
  | zero => rfl
  | succ k ih => simp only [Host.Core.run, h, ih]

theorem runWith_of_stepWith_self {c : Config} {s : State c.pcWidth} (h : stepWith c s = .next s) (k : Nat) :
    runWith c k s = .next s := by
  induction k with
  | zero => rfl
  | succ k ih => simp only [runWith, h, ih]

/-! ### The unsupported word -/

/-- In the hardware build the halt record holds the whole PC - 2, nothing cut off (R99). -/
theorem exec_unsupported (w : Word) (s : State) :
    exec (.unsupported w) s =
      .next { s with run := .haltedUnsupported, runState := 2#2, haltWord := w, haltAddr := s.pc - 2#16 } := by
  simp [exec, execUnsupported, State.haltUnsupported]

end Sys2Proof.Machine

open Sys2Proof.Machine in
/-- Settles O17: an ended state steps to itself, so every run from it stays there; reset gives the reset state. -/
theorem terminalStatesAreAbsorbing : Obligations.TerminalStatesAreAbsorbing :=
  ⟨fun _ k hrun => coreRun_of_step_self (M := Sys2Proof.core) (engineStep_ended hrun) k,
    fun _ _ k hrun => runWith_of_stepWith_self (engineStep_ended hrun) k, fun c _ => resetWith_run c⟩

open Sys2Proof.Machine in
/-- Settles O13: the fetch equation of the step. -/
theorem stepRunsTheDecodedInstruction : Obligations.StepRunsTheDecodedInstruction :=
  fun _ _ h => step_of_fetchesWord h

open Sys2Proof.Machine in
/-- Settles O15: the engine's bound check, which no parameter and no dispatch enters. -/
theorem fetchOutOfBoundsEndsTheProgram : Obligations.FetchOutOfBoundsEndsTheProgram :=
  ⟨fun _ _ hrun hb => engineStep_outOfBounds hrun hb, fun _ hrun hb => engineStep_outOfBounds hrun hb⟩

open Sys2Proof.Machine in
/-- Settles O16: an odd PC fails the alignment check exactly under the abort policy. -/
theorem oddPcFollowsThePolicy : Obligations.OddPcFollowsThePolicy := by
  refine ⟨fun s hrun hlo hhi hodd => ?_, fun c s hrun hlo hhi hodd => ⟨fun habort => ?_, fun w hfetch hw => ?_⟩⟩
  · exact engineStep_misaligned hrun hlo hhi ((misaligned_iff _ _).2 ⟨hodd, rfl⟩)
  · exact engineStep_misaligned hrun hlo hhi ((misaligned_iff _ _).2 ⟨hodd, habort⟩)
  · have hm : ¬ misaligned c s.pc = true := by simp [misaligned_iff, hfetch]
    exact engineStep_fetch hrun hlo hhi hm hw

open Sys2Proof.Machine in
/-- Settles O23: the instruction's own halt, and a fetch before it, whose advance `haltAddr` takes back. -/
theorem unsupportedHaltsAndRecordsTheWord : Obligations.UnsupportedHaltsAndRecordsTheWord := by
  refine ⟨exec_unsupported, fun s w hfetch hdec => ?_⟩
  have haddr : BitVec.ofNat 16 (s.pc.toNat + 2) - 2#16 = s.pc := by bv_omega
  rw [step_of_fetchesWord hfetch, hdec, exec_unsupported]
  simp only [haddr]
end

section
/-! PROOFS. Control transfer (41_control_flow.md): the words of its instructions decoded, each instruction's effect as one
equation, what the next fetch makes of a target (R112), and the runs of a jump or call to itself (R111, R113). -/

namespace Sys2Proof

/-! ### Words given as numbers -/

theorem ofNat_wordA (f : Nibble) (nnn : Addr) : BitVec.ofNat 16 (f.toNat * 4096 + nnn.toNat) = f ++ nnn := by
  rw [← wordA_toNat, BitVec.ofNat_toNat, BitVec.setWidth_eq]

theorem ofNat_wordRI (f x : Nibble) (nn : Byte) :
    BitVec.ofNat 16 (f.toNat * 4096 + x.toNat * 256 + nn.toNat) = f ++ x ++ nn := by
  rw [← wordRI_toNat, BitVec.ofNat_toNat, BitVec.setWidth_eq]

theorem ofNat_wordRRN (f x y n : Nibble) :
    BitVec.ofNat 16 (f.toNat * 4096 + x.toNat * 256 + y.toNat * 16 + n.toNat) = f ++ x ++ y ++ n := by
  rw [← wordRRN_toNat, BitVec.ofNat_toNat, BitVec.setWidth_eq]

theorem exists_nibble_of_lt {k : Nat} (hk : k < 16) : ∃ n : Nibble, n.toNat = k :=
  ⟨BitVec.ofNat 4 k, by rw [BitVec.toNat_ofNat]; omega⟩

/-! ### The instruction each word decodes to -/

/-- Bits 11:8 are ignored in the hardware build (30_encoding.md R66). -/
theorem decode_leaveSubrWord {x : Nat} (hx : x < 16) : decode (BitVec.ofNat 16 (x * 256 + 0xEE)) = .leaveSubr := by
  have hw : (BitVec.ofNat 16 (x * 256 + 0xEE)).toNat = x * 256 + 0xEE := by
    rw [BitVec.toNat_ofNat]
    omega
  have hfam : familyOf (BitVec.ofNat 16 (x * 256 + 0xEE)) = 0x0#4 := familyOf_of_div (by omega)
  have hlow : (x * 256 + 0xEE) % 256 = 0xEE := by omega
  rw [decode, decodeWith_family0 hfam, decodeFamily0_eq, hw, hlow]
  rfl

theorem decode_jumpWord (nnn : Addr) : decode (BitVec.ofNat 16 (0x1000 + nnn.toNat)) = .jump nnn := by
  rw [decode, show BitVec.ofNat 16 (0x1000 + nnn.toNat) = 0x1#4 ++ nnn from ofNat_wordA 0x1#4 nnn,
    decodeWith_family1 (familyOf_wordA ..), fieldNNN_wordA]

theorem decodeWith_enterSubrWord (c : Config) (nnn : Addr) :
    decodeWith c (BitVec.ofNat 16 (0x2000 + nnn.toNat)) = .enterSubr nnn := by
  rw [show BitVec.ofNat 16 (0x2000 + nnn.toNat) = 0x2#4 ++ nnn from ofNat_wordA 0x2#4 nnn,
    decodeWith_family2 (familyOf_wordA ..), fieldNNN_wordA]

theorem decode_skipIfEqWord (x : Nibble) (nn : Byte) :
    decode (BitVec.ofNat 16 (0x3000 + x.toNat * 256 + nn.toNat)) = .skipIfEq x nn := by
  rw [decode, show BitVec.ofNat 16 (0x3000 + x.toNat * 256 + nn.toNat) = 0x3#4 ++ x ++ nn from ofNat_wordRI 0x3#4 x nn,
    decodeWith_family3 (familyOf_wordRI ..), fieldX_wordRI, fieldNN_wordRI]

theorem decode_skipIfNEqWord (x : Nibble) (nn : Byte) :
    decode (BitVec.ofNat 16 (0x4000 + x.toNat * 256 + nn.toNat)) = .skipIfNEq x nn := by
  rw [decode, show BitVec.ofNat 16 (0x4000 + x.toNat * 256 + nn.toNat) = 0x4#4 ++ x ++ nn from ofNat_wordRI 0x4#4 x nn,
    decodeWith_family4 (familyOf_wordRI ..), fieldX_wordRI, fieldNN_wordRI]

/-- In the hardware build the low nibble must be 0 (30_encoding.md R71). -/
theorem decode_family5Word (x y : Nibble) {k : Nat} (hk : k < 16) :
    decode (BitVec.ofNat 16 (0x5000 + x.toNat * 256 + y.toNat * 16 + k)) =
      if k = 0 then .skipIfEqXY x y else .unsupported (BitVec.ofNat 16 (0x5000 + x.toNat * 256 + y.toNat * 16 + k)) := by
  obtain ⟨n, rfl⟩ := exists_nibble_of_lt hk
  have hlow : (0x5#4 ++ x ++ y ++ n).toNat % 16 = n.toNat := by rw [wordRRN_toNat]; omega
  rw [show BitVec.ofNat 16 (0x5000 + x.toNat * 256 + y.toNat * 16 + n.toNat) = 0x5#4 ++ x ++ y ++ n from
    ofNat_wordRRN 0x5#4 x y n, decode, decodeWith_family5 (familyOf_wordRRN ..), hlow, fieldX_wordRRN, fieldY_wordRRN]
  by_cases hn : n.toNat = 0 <;> simp [hn, hardwareBuild]

theorem decode_family9Word (x y : Nibble) {k : Nat} (hk : k < 16) :
    decode (BitVec.ofNat 16 (0x9000 + x.toNat * 256 + y.toNat * 16 + k)) =
      if k = 0 then .skipIfNEqXY x y else .unsupported (BitVec.ofNat 16 (0x9000 + x.toNat * 256 + y.toNat * 16 + k)) := by
  obtain ⟨n, rfl⟩ := exists_nibble_of_lt hk
  have hlow : (0x9#4 ++ x ++ y ++ n).toNat % 16 = n.toNat := by rw [wordRRN_toNat]; omega
  rw [show BitVec.ofNat 16 (0x9000 + x.toNat * 256 + y.toNat * 16 + n.toNat) = 0x9#4 ++ x ++ y ++ n from
    ofNat_wordRRN 0x9#4 x y n, decode, decodeWith_family9 (familyOf_wordRRN ..), hlow, fieldX_wordRRN, fieldY_wordRRN]
  by_cases hn : n.toNat = 0 <;> simp [hn, hardwareBuild]

theorem decode_skipIfEqXYWord (x y : Nibble) :
    decode (BitVec.ofNat 16 (0x5000 + x.toNat * 256 + y.toNat * 16)) = .skipIfEqXY x y :=
  decode_family5Word x y (k := 0) (by decide)

theorem decode_skipIfNEqXYWord (x y : Nibble) :
    decode (BitVec.ofNat 16 (0x9000 + x.toNat * 256 + y.toNat * 16)) = .skipIfNEqXY x y :=
  decode_family9Word x y (k := 0) (by decide)

end Sys2Proof

namespace Sys2Proof.Machine

/-! ### Targets -/

/-- No target is checked before the next fetch, and that one checks every PC (41_control_flow.md R112). -/
theorem checkedByNextFetch {t : State} (hrun : t.run = .running) : CheckedByNextFetch t :=
  ⟨fun hb => engineStep_outOfBounds hrun hb,
    fun hlo hhi hodd => engineStep_misaligned hrun hlo hhi ((misaligned_iff _ _).2 ⟨hodd, rfl⟩)⟩

/-- A target that is the PC's own number is the PC, at any width. -/
theorem target_eq_pc {pw : Nat} {nnn : Addr} {a : BitVec pw} (h : a.toNat = nnn.toNat) : target nnn = a := by
  rw [target_eq, ← h, BitVec.ofNat_toNat, BitVec.setWidth_eq]

theorem exec_jump (nnn : Addr) (s : State) : exec (.jump nnn) s = .next (State.setPc s (target nnn)) := rfl

/-! ### Skips -/

theorem exec_skipIfEq (x : Nibble) (nn : Byte) (s : State) :
    exec (.skipIfEq x nn) s = .next (if State.readReg s x = nn then State.advance s else s) := by
  simp [exec, execSkipIfEq, skipWhen_next]

theorem exec_skipIfNEq (x : Nibble) (nn : Byte) (s : State) :
    exec (.skipIfNEq x nn) s = .next (if State.readReg s x = nn then s else State.advance s) := by
  simp [exec, execSkipIfNEq, skipWhen_next, bne]

theorem exec_skipIfEqXY (x y : Nibble) (s : State) :
    exec (.skipIfEqXY x y) s = .next (if State.readReg s x = State.readReg s y then State.advance s else s) := by
  simp [exec, execSkipIfEqXY, skipWhen_next]

theorem exec_skipIfNEqXY (x y : Nibble) (s : State) :
    exec (.skipIfNEqXY x y) s = .next (if State.readReg s x = State.readReg s y then s else State.advance s) := by
  simp [exec, execSkipIfNEqXY, skipWhen_next, bne]

section
variable {s : State} {w : Word} {p : Prop} [Decidable p]

theorem step_advance_of_fetchesWord (h : FetchesWord s w) : step s = exec (decode w) (State.advance s) := by
  rw [step_of_fetchesWord h, advance_eq]

/-- The engine's advance and the skip's own make a + 4 (41_control_flow.md R114). -/
theorem advance_advance (s : State) :
    State.advance (State.advance s) = { s with pc := BitVec.ofNat 16 (s.pc.toNat + 4) } := by
  have hpc : s.pc + 2#16 + 2#16 = BitVec.ofNat 16 (s.pc.toNat + 4) := by bv_omega
  rw [← hpc]
  rfl

/-- A fetched instruction that skips exactly when `p` holds. -/
theorem stepMovesPcBy_of_skipWhen (h : FetchesWord s w)
    (hexec : exec (decode w) (State.advance s) = .next (if p then State.advance (State.advance s) else State.advance s)) :
    if p then StepMovesPcBy 4 s else StepMovesPcBy 2 s := by
  by_cases hp : p
  · rw [if_pos hp] at hexec ⊢
    rw [StepMovesPcBy, step_advance_of_fetchesWord h, hexec, advance_advance]
  · rw [if_neg hp] at hexec ⊢
    rw [StepMovesPcBy, step_advance_of_fetchesWord h, hexec, advance_eq]

/-- A fetched instruction that skips exactly when `p` fails. -/
theorem stepMovesPcBy_of_skipUnless (h : FetchesWord s w)
    (hexec : exec (decode w) (State.advance s) = .next (if p then State.advance s else State.advance (State.advance s))) :
    if p then StepMovesPcBy 2 s else StepMovesPcBy 4 s := by
  rw [← ite_not] at hexec ⊢
  exact stepMovesPcBy_of_skipWhen h hexec

end

/-! ### A call to itself -/

section
variable {c : Config} {s t : State c.pcWidth} {k : Nat}

theorem stepWith_of_fetchesWord {w : Word} (h : FetchesWord s w) :
    stepWith c s = execWith c (decodeWith c w) (State.advance s) := by
  obtain ⟨hrun, hlo, hhi, heven, hw⟩ := h
  have hm : ¬ misaligned c s.pc = true := fun hm => by
    have hodd := ((misaligned_iff _ _).1 hm).1
    omega
  rw [stepWith, engineStep_fetch hrun hlo hhi hm hw, advance_eq]

/-- The last step of a run, where `runWith` takes the first off. -/
theorem runWith_succ_of_next (h : runWith c k s = .next t) : runWith c (k + 1) s = stepWith c t := by
  induction k generalizing s with
  | zero =>
    cases h
    simp only [runWith]
    cases stepWith c t <;> rfl
  | succ k ih =>
    rw [runWith] at h ⊢
    cases hs : stepWith c s with
    | next u =>
      rw [hs] at h
      exact ih h
    | fault f => rw [hs] at h; cases h
    | refused r => rw [hs] at h; cases h

/-- The state after `k` calls of the word at the PC to itself: `k` times the address of the next instruction is pushed. -/
def State.afterSelfCalls (s : State c.pcWidth) (k : Nat) : State c.pcWidth :=
  { s with stack := s.stack ++ List.replicate k (BitVec.ofNat c.pcWidth (s.pc.toNat + 2)) }

theorem afterSelfCalls_stack_length (s : State c.pcWidth) (k : Nat) :
    (State.afterSelfCalls s k).stack.length = s.stack.length + k := by
  simp [State.afterSelfCalls]

theorem afterSelfCalls_succ (s : State c.pcWidth) (k : Nat) :
    State.afterSelfCalls (State.afterSelfCalls s k) 1 = State.afterSelfCalls s (k + 1) := by
  simp [State.afterSelfCalls, List.replicate_succ']

/-- The stack is no part of the fetch. -/
theorem afterSelfCalls_fetchesWord {w : Word} (h : FetchesWord s w) (k : Nat) :
    FetchesWord (State.afterSelfCalls s k) w := h

variable {nnn : Addr} (hfetch : FetchesWord s (BitVec.ofNat 16 (0x2000 + nnn.toNat))) (hself : s.pc.toNat = nnn.toNat)

include hfetch

theorem stepWith_selfCall_full (hfull : c.stackDepth = some s.stack.length) :
    stepWith c s = .next (State.raiseAbort (State.advance s) .stackOverflow) := by
  rw [stepWith_of_fetchesWord hfetch, decodeWith_enterSubrWord]
  exact execWith_enterSubr_full nnn hfull

include hself

theorem stepWith_selfCall_push (hroom : c.stackDepth ≠ some s.stack.length) :
    stepWith c s = .next (State.afterSelfCalls s 1) := by
  have hpush : execWith c (.enterSubr nnn) (State.advance s) =
      .next (State.setPc (State.push (State.advance s) (State.advance s).pc) (target nnn)) :=
    execWith_enterSubr_push nnn hroom
  rw [stepWith_of_fetchesWord hfetch, decodeWith_enterSubrWord, hpush, target_eq_pc hself, advance_eq]
  rfl

/-- As long as the depth allows, every step pushes once more (41_control_flow.md R113). -/
theorem runWith_selfCall (hroom : ∀ d, c.stackDepth = some d → s.stack.length + k ≤ d) :
    runWith c k s = .next (State.afterSelfCalls s k) := by
  induction k with
  | zero => simp [runWith, State.afterSelfCalls]
  | succ k ih =>
    have hrun := ih fun d hd => by have := hroom d hd; omega
    have hfits : c.stackDepth ≠ some (State.afterSelfCalls s k).stack.length := fun hd => by
      have := hroom _ hd
      rw [afterSelfCalls_stack_length] at this
      omega
    rw [runWith_succ_of_next hrun, stepWith_selfCall_push (afterSelfCalls_fetchesWord hfetch k) hself hfits,
      afterSelfCalls_succ]

/-- The call after the last that fits aborts. -/
theorem runWith_selfCall_overflow (hfull : c.stackDepth = some (s.stack.length + k)) :
    runWith c (k + 1) s = .next (State.raiseAbort (State.advance (State.afterSelfCalls s k)) .stackOverflow) := by
  have hrun := runWith_selfCall (k := k) hfetch hself fun d hd => by
    rw [hfull, Option.some.injEq] at hd
    omega
  rw [runWith_succ_of_next hrun, stepWith_selfCall_full (afterSelfCalls_fetchesWord hfetch k)]
  rw [hfull, afterSelfCalls_stack_length]

end

end Sys2Proof.Machine

open Sys2Proof Sys2Proof.Machine in
/-- Settles O26: the jump's own equation; a jump to itself steps to the state it starts from. -/
theorem jumpSetsThePcToItsTarget : Obligations.JumpSetsThePcToItsTarget := by
  refine fun nnn => ⟨fun s => ⟨_, exec_jump nnn s, ?_, fun hrun => checkedByNextFetch hrun⟩, decode_jumpWord nnn,
    fun s hfetch hself k => ?_⟩
  · rw [target_eq]
    rfl
  · have hstep : step s = .next s := by
      rw [step_of_fetchesWord hfetch, decode_jumpWord, exec_jump, target_eq_pc hself]
      rfl
    exact coreRun_of_step_self (M := Sys2Proof.core) hstep k

open Sys2Proof Sys2Proof.Machine in
/-- Settles O27: the call's two equations, and the run of a self-call, which pushes until the depth is reached. -/
theorem enterSubrPushesAndJumpsOrAborts : Obligations.EnterSubrPushesAndJumpsOrAborts := by
  refine fun nnn => ⟨fun s hfull => exec_enterSubr_full nnn hfull,
    fun s hroom => ⟨_, exec_enterSubr_push nnn hroom, ?_, fun hrun => checkedByNextFetch hrun⟩,
    fun c s hfull => execWith_enterSubr_full nnn hfull, fun c s hroom => ?_, decodeWith_enterSubrWord hardwareBuild nnn,
    fun c s hfetch hself k hroom => ⟨runWith_selfCall hfetch hself hroom, fun hfull => ?_⟩⟩
  · rw [target_eq]
    rfl
  · rw [execWith_enterSubr_push nnn hroom, target_eq]
    rfl
  · rw [runWith_selfCall_overflow hfetch hself hfull, advance_eq]
    rfl

open Sys2Proof Sys2Proof.Machine in
/-- Settles O32: each skip's equation after the engine's advance; memory at a + 2 is read by neither. -/
theorem takenSkipsPassOverTheNextWord : Obligations.TakenSkipsPassOverTheNextWord := by
  refine ⟨fun s x nn hfetch => stepMovesPcBy_of_skipWhen hfetch ?_,
    fun s x nn hfetch => stepMovesPcBy_of_skipUnless hfetch ?_,
    fun s x y hfetch => stepMovesPcBy_of_skipWhen hfetch ?_,
    fun s x y hfetch => stepMovesPcBy_of_skipUnless hfetch ?_, fun s t hrun hlo hhi ht => ?_⟩
  · rw [decode_skipIfEqWord, exec_skipIfEq, State.advance_readReg]
  · rw [decode_skipIfNEqWord, exec_skipIfNEq, State.advance_readReg]
  · rw [decode_skipIfEqXYWord, exec_skipIfEqXY, State.advance_readReg, State.advance_readReg]
  · rw [decode_skipIfNEqXYWord, exec_skipIfNEqXY, State.advance_readReg, State.advance_readReg]
  · subst ht
    have hpc : (BitVec.ofNat 16 (s.pc.toNat + 4)).toNat = s.pc.toNat + 4 := by
      rw [BitVec.toNat_ofNat]
      omega
    exact engineStep_outOfBounds hrun (.inr (by simp only [hpc]; omega))

open Sys2Proof Sys2Proof.Machine in
/-- Settles O25: the return's two equations, by whether the stack has a last entry. -/
theorem leaveSubrPopsIntoThePcOrAborts : Obligations.LeaveSubrPopsIntoThePcOrAborts := by
  refine ⟨fun s hempty => exec_leaveSubr_empty hempty,
    fun s rest top htop => ⟨_, exec_leaveSubr_pop htop, ?_, fun hrun => checkedByNextFetch hrun⟩,
    fun x hx => decode_leaveSubrWord hx⟩
  have hrest : s.stack.dropLast = rest := by rw [htop, List.dropLast_concat]
  rw [← hrest]
  rfl

open Sys2Proof Sys2Proof.Machine in
/-- Settles O30: the two skips' equations and words. -/
theorem immediateSkipsTestTheRegister : Obligations.ImmediateSkipsTestTheRegister := fun x nn =>
  ⟨exec_skipIfEq x nn, exec_skipIfNEq x nn, decode_skipIfEqWord x nn, decode_skipIfNEqWord x nn⟩

open Sys2Proof Sys2Proof.Machine in
/-- Settles O31: the two skips' equations, at x = y too, and their words by the low nibble. -/
theorem registerSkipsCompareTheRegisters : Obligations.RegisterSkipsCompareTheRegisters := by
  refine fun x y => ⟨exec_skipIfEqXY x y, exec_skipIfNEqXY x y, fun s => ?_, fun s => ?_, decode_skipIfEqXYWord x y,
    decode_skipIfNEqXYWord x y, fun k hpos hk =>
      ⟨(decode_family5Word x y hk).trans (if_neg (by omega)), (decode_family9Word x y hk).trans (if_neg (by omega))⟩⟩
  · rw [exec_skipIfEqXY, if_pos rfl]
    rfl
  · rw [exec_skipIfNEqXY, if_pos rfl]
end

section
/-! PROOFS. Register instructions (42_registers.md): their words decoded, each instruction's effect as one equation, and the
frame of a register write. -/

namespace Sys2Proof

/-! ### The instruction each word decodes to -/

theorem decode_setRegWord (x : Nibble) (nn : Byte) :
    decode (BitVec.ofNat 16 (0x6000 + x.toNat * 256 + nn.toNat)) = .setReg x nn := by
  rw [decode, show BitVec.ofNat 16 (0x6000 + x.toNat * 256 + nn.toNat) = 0x6#4 ++ x ++ nn from ofNat_wordRI 0x6#4 x nn,
    decodeWith_family6 (familyOf_wordRI ..), fieldX_wordRI, fieldNN_wordRI]

theorem decode_addToRegWord (x : Nibble) (nn : Byte) :
    decode (BitVec.ofNat 16 (0x7000 + x.toNat * 256 + nn.toNat)) = .addToReg x nn := by
  rw [decode, show BitVec.ofNat 16 (0x7000 + x.toNat * 256 + nn.toNat) = 0x7#4 ++ x ++ nn from ofNat_wordRI 0x7#4 x nn,
    decodeWith_family7 (familyOf_wordRI ..), fieldX_wordRI, fieldNN_wordRI]

theorem decode_setIndexWord (nnn : Addr) : decode (BitVec.ofNat 16 (0xA000 + nnn.toNat)) = .setIndex nnn := by
  rw [decode, show BitVec.ofNat 16 (0xA000 + nnn.toNat) = 0xA#4 ++ nnn from ofNat_wordA 0xA#4 nnn,
    decodeWith_familyA (familyOf_wordA ..), fieldNNN_wordA]

end Sys2Proof

namespace Sys2Proof.Machine

/-! ### Each instruction's effect -/

theorem exec_setReg (x : Nibble) (nn : Byte) (s : State) : exec (.setReg x nn) s = .next (State.writeReg s x nn) := rfl

theorem exec_addToReg (x : Nibble) (nn : Byte) (s : State) :
    exec (.addToReg x nn) s = .next (State.writeReg s x (State.readReg s x + nn)) := rfl

theorem exec_setIndex (nnn : Addr) (s : State) : exec (.setIndex nnn) s = .next (State.setIndex s nnn) := rfl

/-! ### What a register write leaves unchanged -/

theorem regsKept_writeReg {pw : Nat} (s : State pw) (x : Nibble) (b : Byte) : RegsKept s (State.writeReg s x b) [x] :=
  fun _ hr => State.readReg_writeReg_ne s b (List.ne_of_not_mem_cons hr)

theorem writeReg_eq_with_v {pw : Nat} (s : State pw) (x : Nibble) (b : Byte) :
    State.writeReg s x b = { s with v := (State.writeReg s x b).v } := rfl

end Sys2Proof.Machine

open Sys2Proof Sys2Proof.Machine in
/-- Settles O33: the instruction is one register write, and no index, VF's either, is a special case of it. -/
theorem setRegWritesItsRegisterOnly : Obligations.SetRegWritesItsRegisterOnly := fun x nn =>
  ⟨fun s => ⟨_, exec_setReg x nn s, State.readReg_writeReg_same s x nn, regsKept_writeReg s x nn,
    writeReg_eq_with_v s x nn⟩, decode_setRegWord x nn⟩

open Sys2Proof Sys2Proof.Machine in
/-- Settles O34: one register write of the 8-bit sum, so the carry is dropped and VF is kept unless it is `x`. -/
theorem addToRegAddsModulo256WithoutAFlag : Obligations.AddToRegAddsModulo256WithoutAFlag := by
  refine fun x nn => ⟨fun s => ⟨_, exec_addToReg x nn s, ?_, regsKept_writeReg s x _, writeReg_eq_with_v s x _⟩,
    decode_addToRegWord x nn⟩
  rw [State.readReg_writeReg_same, BitVec.toNat_add]

open Sys2Proof Sys2Proof.Machine in
/-- Settles O35: the instruction's equation and word; a 12-bit operand fills the 12-bit index register. -/
theorem setIndexLoadsTheIndexRegister : Obligations.SetIndexLoadsTheIndexRegister := fun nnn =>
  ⟨exec_setIndex nnn, decode_setIndexWord nnn⟩
end

section
/-! PROOFS. The display instructions (43_display.md): the word of `ClearScreen` decoded, and `Display`'s sprite in the
spec's closed form (R142 to R149), from which its grid, its collision flag and its events follow. -/

namespace Sys2Proof

/-- A family 0x0 word by its low byte: bits 11:8 are ignored in the hardware build (30_encoding.md R66). -/
theorem decode_family0Word {x k : Nat} (hx : x < 16) (hk : k < 256) :
    decode (BitVec.ofNat 16 (x * 256 + k)) =
      if k = 0xE0 then .clearScreen else if k = 0xEE then .leaveSubr
      else .unsupported (BitVec.ofNat 16 (x * 256 + k)) := by
  have hw : (BitVec.ofNat 16 (x * 256 + k)).toNat = x * 256 + k := by
    rw [BitVec.toNat_ofNat]
    omega
  have hfam : familyOf (BitVec.ofNat 16 (x * 256 + k)) = 0x0#4 := familyOf_of_div (by omega)
  have hlow : (x * 256 + k) % 256 = k := by omega
  rw [decode, decodeWith_family0 hfam, decodeFamily0_eq, hw, hlow]
  rfl

theorem decode_clearScreenWord {x : Nat} (hx : x < 16) : decode (BitVec.ofNat 16 (x * 256 + 0xE0)) = .clearScreen :=
  decode_family0Word hx (by decide)

end Sys2Proof

namespace Sys2Proof.Machine

theorem exec_clearScreen (s : State) :
    exec .clearScreen s = .next (State.emit (State.setFb s Framebuffer.blank) [.clearAll, .flush]) := rfl

/-! ### The sprite in closed form -/

/-- `rows` are the bytes of the drawn sprite rows: from `base` on, as many as the bottom edge and memory leave
(43_display.md R144, R146). -/
structure SpriteRows (m : Memory) (n : Nibble) (r0 base : Nat) (rows : List Byte) : Prop where
  length_eq : rows.length = rowsDrawn n r0 base
  getD_eq : ∀ k, k < rows.length → rows.getD k 0#8 = Memory.byte m (base + k)

/-- `Display` draws the sprite rows at the anchor its registers hold before VF is reset (43_display.md R145). -/
theorem exec_display (x y n : Nibble) (s : State) :
    ∃ rows, SpriteRows s.mem n (anchorRow (State.readReg s y)) s.index.toNat rows ∧
      exec (.display x y n) s =
        .next (drawSprite s (anchorCol (State.readReg s x)) (anchorRow (State.readReg s y)) rows) := by
  obtain ⟨rows, hnext, hlen, hget⟩ := execDisplay_next x y n s
  refine ⟨rows, ⟨hlen, fun k hk => ?_⟩, hnext⟩
  rw [List.getD_eq_getElem?_getD, hget k hk, Option.getD_some]

theorem displayBit_eq_spriteBitAt (s : State) (x y n : Nibble) (r c : Nat) :
    displayBit s x y n r c =
      spriteBitAt s.mem n (anchorRow (State.readReg s y)) (anchorCol (State.readReg s x)) s.index.toNat r c := rfl

section
variable {m : Memory} {n : Nibble} {r0 c0 base : Nat} {rows : List Byte} (hrows : SpriteRows m n r0 base rows)

include hrows

theorem SpriteRows.inSprite_eq (r c : Nat) :
    inSprite n r0 c0 base r c = decide (r0 ≤ r ∧ r < r0 + rows.length ∧ c0 ≤ c ∧ c < c0 + drawWidth c0) := by
  simp [inSprite, hrows.length_eq, drawWidth, Bool.and_assoc]

theorem SpriteRows.spriteBitAt_eq (r c : Nat) :
    spriteBitAt m n r0 c0 base r c =
      (decide (r0 ≤ r ∧ r < r0 + rows.length ∧ c0 ≤ c ∧ c < c0 + drawWidth c0) &&
        spriteBit (rows.getD (r - r0) 0#8) (c - c0)) := by
  rw [spriteBitAt, hrows.inSprite_eq]
  by_cases hin : r0 ≤ r ∧ r < r0 + rows.length ∧ c0 ≤ c ∧ c < c0 + drawWidth c0
  · rw [hrows.getD_eq (r - r0) (by omega)]
    rfl
  · rw [decide_eq_false hin, Bool.false_and, Bool.false_and]

theorem SpriteRows.bottom_le (hr : r0 < 32) : r0 + rows.length ≤ 32 := by
  have hlen : rows.length = min (min n.toNat (32 - r0)) (4096 - base) := hrows.length_eq
  omega

/-- Compositing is XOR with the closed form (43_display.md R149). -/
theorem SpriteRows.drawRows_cell (hr : r0 < 32) (hc : c0 < 64) (cv : Canvas) (r c : Nat) :
    Framebuffer.cell (Canvas.drawRows c0 (drawWidth c0) rows r0 cv).fb r c =
      (Framebuffer.cell cv.fb r c ^^ spriteBitAt m n r0 c0 base r c) := by
  rw [Canvas.drawRows_cell rows r0 cv (hrows.bottom_le hr) (drawWidth_bound hc).1, hrows.spriteBitAt_eq]

/-- The accumulated flag does not depend on the order of the cells or on where the overlap is (43_display.md R148). -/
theorem SpriteRows.drawRows_collided (hr : r0 < 32) (hc : c0 < 64) (fb : Framebuffer) :
    (Canvas.drawRows c0 (drawWidth c0) rows r0 ⟨fb, false⟩).collided = true ↔
      ∃ r c, Framebuffer.cell fb r c = true ∧ spriteBitAt m n r0 c0 base r c = true := by
  rw [Canvas.drawRows_collided rows r0 _ (hrows.bottom_le hr) (drawWidth_bound hc).1]
  simp only [hrows.spriteBitAt_eq, Bool.and_eq_true, decide_eq_true_eq, Bool.false_eq_true, false_or]
  constructor
  · rintro ⟨k, c, hk, hcw, hon, hbit⟩
    refine ⟨r0 + k, c0 + c, hon, by omega, ?_⟩
    rwa [Nat.add_sub_cancel_left, Nat.add_sub_cancel_left]
  · rintro ⟨r, c, hon, ⟨hlo, hhi, hleft, hright⟩, hbit⟩
    refine ⟨r - r0, c - c0, by omega, by omega, ?_, hbit⟩
    rwa [Nat.add_sub_cancel' hlo, Nat.add_sub_cancel' hleft]

end

/-! ### The state after a sprite -/

theorem drawSprite_readVF {pw : Nat} (s : State pw) (c0 r0 : Nat) (rows : List Byte) :
    State.readReg (drawSprite s c0 r0 rows) 0xF#4 =
      flagByte (Canvas.drawRows c0 (drawWidth c0) rows r0 ⟨s.fb, false⟩).collided := by
  rw [drawSprite_readReg, if_pos (show 0xF#4 = regVF from rfl)]

theorem regsKept_drawSprite {pw : Nat} (s : State pw) (c0 r0 : Nat) (rows : List Byte) :
    RegsKept s (drawSprite s c0 r0 rows) [0xF#4] := fun x hx => by
  rw [drawSprite_readReg, if_neg (show ¬ x = regVF from List.ne_of_not_mem_cons hx)]

theorem drawWidth_pos {c0 : Nat} (h : c0 < 64) : 0 < drawWidth c0 := by
  simp only [drawWidth, spriteW, gridW]
  omega

end Sys2Proof.Machine

open Sys2Proof Sys2Proof.Machine in
/-- Settles O37: the sprite bytes are rows of the closed form, and drawing them is XOR with its bits. -/
theorem displayXorsTheClippedSprite : Obligations.DisplayXorsTheClippedSprite := by
  intro x y n s
  obtain ⟨rows, hrows, hnext⟩ := exec_display x y n s
  refine ⟨_, hnext, fun r c => ?_⟩
  rw [drawSprite_fb, hrows.drawRows_cell (anchorRow_lt _) (anchorCol_lt _), displayBit_eq_spriteBitAt]

open Sys2Proof Sys2Proof.Machine in
/-- Settles O38: VF is written last, with the accumulated collision, an overlap of the grid and the closed form. -/
theorem displaySetsVfToTheCollision : Obligations.DisplaySetsVfToTheCollision := by
  intro x y n s
  obtain ⟨rows, hrows, hnext⟩ := exec_display x y n s
  have hcollided := hrows.drawRows_collided (anchorRow_lt _) (anchorCol_lt (State.readReg s x)) s.fb
  refine ⟨_, hnext, fun hoverlap => ?_, fun hclear => ?_, regsKept_drawSprite s _ _ rows⟩
  · rw [drawSprite_readVF, hcollided.2 hoverlap]
    rfl
  · have hnone : (Canvas.drawRows _ _ rows _ ⟨s.fb, false⟩).collided = false :=
      Bool.eq_false_iff.2 fun hon => by
        obtain ⟨r, c, hcell, hbit⟩ := hcollided.1 hon
        exact Bool.eq_false_iff.1 (hclear r c hcell) hbit
    rw [drawSprite_readVF, hnone]
    rfl

open Sys2Proof Sys2Proof.Machine in
/-- Settles O39: the rectangle has as many rows as bytes were read, and its row-major list has one running index. -/
theorem displayEmitsTheRectangleThenFlush : Obligations.DisplayEmitsTheRectangleThenFlush := by
  intro x y n s
  obtain ⟨rows, hrows, hnext⟩ := exec_display x y n s
  refine ⟨_, hnext, ?_⟩
  rw [drawSprite_events, rectEvents_eq_map _ _ _ _ (drawWidth_pos (anchorCol_lt _)), hrows.length_eq,
    ← List.append_assoc]
  rfl

open Sys2Proof Sys2Proof.Machine in
/-- Settles O36: the instruction's equation and its words. -/
theorem clearScreenClearsEveryCell : Obligations.ClearScreenClearsEveryCell :=
  ⟨fun s => ⟨_, exec_clearScreen s, Framebuffer.cell_blank, rfl⟩, fun _ hx => decode_clearScreenWord hx⟩
end

section
/-! PROOFS. The outcomes of a step (60_exceptions.md): which instructions end the run and when (R170), the order of the checks
(R175), and what an abort records (R172). -/

namespace Sys2Proof

theorem eq_of_ite_eq_unsupported {p : Prop} [Decidable p] {i j : Instr} {w u : Word} (hi : i = .unsupported u → w = u)
    (hj : j = .unsupported u → w = u) : (if p then i else j) = .unsupported u → w = u := by
  split <;> assumption

/-- The catch-all carries the word it was decoded from, on every branch of the dispatch (30_encoding.md R75). -/
theorem eq_of_decodeWith_eq_unsupported {c : Config} {w u : Word} : decodeWith c w = .unsupported u → w = u := by
  unfold decodeWith decodeFamily0
  repeat' apply eq_of_ite_eq_unsupported
  all_goals simp

end Sys2Proof

namespace Sys2Proof.Machine

/-- `i` ends no run from `s`: it is no halt, no return on an empty stack and no call on a full one (60_exceptions.md R170). -/
def KeepsRunning : Instr → State → Prop
  | .unsupported _, _ => False
  | .leaveSubr, s => s.stack ≠ []
  | .enterSubr _, s => s.stack.length ≠ 16
  | _, _ => True

theorem run_ite {p : Prop} [Decidable p] {a b : State} {r : RunState} (ha : a.run = r) (hb : b.run = r) :
    (if p then a else b).run = r := by
  split <;> assumption

theorem exec_run_of_keepsRunning {i : Instr} {s : State} (hkeeps : KeepsRunning i s) :
    ∃ t, exec i s = .next t ∧ t.run = s.run := by
  cases i with
  | unsupported w => exact hkeeps.elim
  | leaveSubr =>
    obtain hempty | ⟨st, ret, hpop⟩ := List.eq_nil_or_concat' s.stack
    · exact absurd hempty hkeeps
    · exact ⟨_, exec_leaveSubr_pop hpop, rfl⟩
  | enterSubr nnn => exact ⟨_, exec_enterSubr_push nnn hkeeps, rfl⟩
  | clearScreen => exact ⟨_, exec_clearScreen s, rfl⟩
  | jump nnn => exact ⟨_, exec_jump nnn s, rfl⟩
  | skipIfEq x nn => exact ⟨_, exec_skipIfEq x nn s, run_ite rfl rfl⟩
  | skipIfNEq x nn => exact ⟨_, exec_skipIfNEq x nn s, run_ite rfl rfl⟩
  | skipIfEqXY x y => exact ⟨_, exec_skipIfEqXY x y s, run_ite rfl rfl⟩
  | skipIfNEqXY x y => exact ⟨_, exec_skipIfNEqXY x y s, run_ite rfl rfl⟩
  | setReg x nn => exact ⟨_, exec_setReg x nn s, rfl⟩
  | addToReg x nn => exact ⟨_, exec_addToReg x nn s, rfl⟩
  | setIndex nnn => exact ⟨_, exec_setIndex nnn s, rfl⟩
  | display x y n =>
    obtain ⟨rows, _, hexec⟩ := exec_display x y n s
    exact ⟨_, hexec, rfl⟩

/-- Every way an instruction can treat `run`: one halt, two aborts, or it leaves `run` as it is. -/
theorem exec_run_cases (i : Instr) (s : State) :
    (∃ w, i = .unsupported w ∧ exec i s = .next (State.haltUnsupported s w)) ∨
    (i = .leaveSubr ∧ s.stack = [] ∧ exec i s = .next (State.raiseAbort s .emptyStackPop)) ∨
    (∃ nnn, i = .enterSubr nnn ∧ s.stack.length = 16 ∧ exec i s = .next (State.raiseAbort s .stackOverflow)) ∨
    (KeepsRunning i s ∧ ∃ t, exec i s = .next t ∧ t.run = s.run) := by
  by_cases hkeeps : KeepsRunning i s
  · exact .inr (.inr (.inr ⟨hkeeps, exec_run_of_keepsRunning hkeeps⟩))
  cases i with
  | unsupported w => exact .inl ⟨w, rfl, rfl⟩
  | leaveSubr =>
    have hempty := not_not.1 hkeeps
    exact .inr (.inl ⟨rfl, hempty, exec_leaveSubr_empty hempty⟩)
  | enterSubr nnn =>
    have hfull := not_not.1 hkeeps
    exact .inr (.inr (.inl ⟨nnn, rfl, hfull, exec_enterSubr_full nnn hfull⟩))
  | _ => exact absurd trivial hkeeps

/-- The outcome of the fetched instruction, the last of the checks (60_exceptions.md R175). -/
theorem step_outcome_of_fetchesWord {s : State} {w : Word} (h : FetchesWord s w) :
    ∃ t, step s = .next t ∧
      (decode w = .unsupported w → t.run = .haltedUnsupported) ∧
      (decode w = .leaveSubr → t.run = if s.stack = [] then .aborted .emptyStackPop else .running) ∧
      (∀ nnn, decode w = .enterSubr nnn → t.run = if s.stack.length = 16 then .aborted .stackOverflow else .running) ∧
      (decode w ≠ .unsupported w → decode w ≠ .leaveSubr → (∀ nnn, decode w ≠ .enterSubr nnn) → t.run = .running) := by
  rw [step_advance_of_fetchesWord h]
  obtain ⟨u, hdec, hexec⟩ | ⟨hdec, hempty, hexec⟩ | ⟨nnn, hdec, hfull, hexec⟩ | ⟨hkeeps, t, hexec, hrun⟩ :=
    exec_run_cases (decode w) (State.advance s)
  · obtain rfl := eq_of_decodeWith_eq_unsupported hdec
    exact ⟨_, hexec, by simp [hdec]⟩
  · rw [State.advance_stack] at hempty
    exact ⟨_, hexec, by simp [hdec, hempty]⟩
  · rw [State.advance_stack] at hfull
    exact ⟨_, hexec, by simp [hdec, hfull]⟩
  · have hrunning : t.run = .running := hrun.trans h.1
    refine ⟨t, hexec, fun hdec => ?_, fun hdec => ?_, fun nnn hdec => ?_, fun _ _ _ => hrunning⟩ <;> rw [hdec] at hkeeps
    · exact hkeeps.elim
    · exact hrunning.trans (if_neg hkeeps).symm
    · exact hrunning.trans (if_neg hkeeps).symm

/-- The two places a step can abort at: the alignment check, before the advance, and an instruction, after it
(60_exceptions.md R172). -/
theorem step_aborted_cases {s t : State} {r : AbortReason} (hrun : s.run = .running) (hstep : step s = .next t)
    (habort : t.run = .aborted r) :
    (r = .misalignedPC ∧ t = State.raiseAbort s .misalignedPC) ∨
    (r = .emptyStackPop ∧ t = State.raiseAbort (State.advance s) .emptyStackPop) ∨
    (r = .stackOverflow ∧ t = State.raiseAbort (State.advance s) .stackOverflow) := by
  obtain ⟨hne, _⟩ | ⟨_, _, h⟩ | ⟨_, _, _, _, h⟩ | ⟨_, _, _, _, h⟩ := step_cases s
  · exact absurd hrun hne
  · cases hstep.symm.trans h
    cases habort
  · cases hstep.symm.trans h
    cases habort
    exact .inl ⟨rfl, rfl⟩
  · obtain ⟨u, _, hexec⟩ | ⟨_, _, hexec⟩ | ⟨nnn, _, _, hexec⟩ | ⟨_, t', hexec, hkept⟩ := exec_run_cases _ (State.advance s)
    all_goals cases hstep.symm.trans (h.trans hexec)
    · cases habort
    · cases habort
      exact .inr (.inl ⟨rfl, rfl⟩)
    · cases habort
      exact .inr (.inr ⟨rfl, rfl⟩)
    · rw [hkept, State.advance_run, hrun] at habort
      cases habort

end Sys2Proof.Machine

open Sys2Proof.Machine in
/-- Settles O19: the first check that applies rules the others out, and the word at an even PC is the only one fetched. -/
theorem outcomeOfAStepFollowsThePriority : Obligations.OutcomeOfAStepFollowsThePriority := by
  intro s hrun
  obtain ⟨hne, _⟩ | ⟨_, hb, h⟩ | ⟨_, hlo, hhi, hodd, h⟩ | ⟨_, hlo, hhi, heven, _⟩ := step_cases s
  · exact absurd hrun hne
  · exact ⟨_, h, fun _ => rfl, fun hlo hhi => by omega, fun w ⟨_, hlo, hhi, _⟩ => by omega⟩
  · exact ⟨_, h, fun hb => by omega, fun _ _ _ => rfl, fun w ⟨_, _, _, heven, _⟩ => by omega⟩
  · have hfetch := fetchesWord_bigEndian hrun hlo hhi heven
    obtain ⟨t, hstep, hinstr⟩ := step_outcome_of_fetchesWord hfetch
    refine ⟨t, hstep, fun hb => by omega, fun _ _ hodd => by omega, fun w hw => ?_⟩
    rw [fetchesWord_eq hw]
    exact hinstr

open Sys2Proof.Machine in
/-- Settles O20: every abort of a step is one `raiseAbort`, and only the instructions' two come after the advance. -/
theorem abortRecordsItsReasonAndNothingElse : Obligations.AbortRecordsItsReasonAndNothingElse := by
  intro s t r hrun hstep habort
  have hfaulted : Faulted t := ⟨r, habort⟩
  have habnormal : ¬ NormalEnd t := by simp [NormalEnd, habort]
  obtain ⟨rfl, rfl⟩ | ⟨rfl, rfl⟩ | ⟨rfl, rfl⟩ := step_aborted_cases hrun hstep habort
  · exact ⟨rfl, hfaulted, habnormal, by decide, by decide⟩
  · exact ⟨by rw [advance_eq]; rfl, hfaulted, habnormal, by decide, by decide⟩
  · exact ⟨by rw [advance_eq]; rfl, hfaulted, habnormal, by decide, by decide⟩
end

section
/-! PROOFS. What an instruction and a step do, as relations that hold exactly of the next state: `Effect` for the dispatch
(40_execution_engine.md R96), `StepEffect` for the engine around it (R90 to R101). Frames, invariants and
noninterference are then case analyses of these two. -/

namespace Sys2Proof.Machine

/-! ### The effect of an instruction -/

/-- What a skip tests, a function of the register file alone; `none` for an instruction that is no skip
(41_control_flow.md R115 to R118). -/
def skipTest (V : Nibble → Byte) : Instr → Option Bool
  | .skipIfEq x nn => some (V x == nn)
  | .skipIfNEq x nn => some (V x != nn)
  | .skipIfEqXY x y => some (V x == V y)
  | .skipIfNEqXY x y => some (V x != V y)
  | _ => none

/-- `i`, run on `s` under the stack depth `depth`, gives `t`: one constructor per way an instruction can go. -/
inductive Effect (depth : Option Nat) {pw : Nat} (s : State pw) : Instr → State pw → Prop
  | clearScreen : Effect depth s .clearScreen (State.emit (State.setFb s Framebuffer.blank) [.clearAll, .flush])
  | returnEmpty (hempty : s.stack = []) : Effect depth s .leaveSubr (State.raiseAbort s .emptyStackPop)
  | returnPop {st : List (BitVec pw)} {ret : BitVec pw} (htop : s.stack = st ++ [ret]) :
      Effect depth s .leaveSubr (State.setPc (State.dropTop s) ret)
  | jump {nnn : Addr} : Effect depth s (.jump nnn) (State.setPc s (target nnn))
  | callFull {nnn : Addr} (hfull : depth = some s.stack.length) :
      Effect depth s (.enterSubr nnn) (State.raiseAbort s .stackOverflow)
  | callPush {nnn : Addr} (hroom : depth ≠ some s.stack.length) :
      Effect depth s (.enterSubr nnn) (State.setPc (State.push s s.pc) (target nnn))
  | skip {i : Instr} {b : Bool} (htest : skipTest (State.readReg s) i = some b) :
      Effect depth s i (if b then State.advance s else s)
  | setReg {x : Nibble} {nn : Byte} : Effect depth s (.setReg x nn) (State.writeReg s x nn)
  | addToReg {x : Nibble} {nn : Byte} : Effect depth s (.addToReg x nn) (State.writeReg s x (State.readReg s x + nn))
  | setIndex {nnn : Addr} : Effect depth s (.setIndex nnn) (State.setIndex s nnn)
  | display {x y n : Nibble} {rows : List Byte}
      (hrows : SpriteRows s.mem n (anchorRow (State.readReg s y)) s.index.toNat rows) :
      Effect depth s (.display x y n)
        (drawSprite s (anchorCol (State.readReg s x)) (anchorRow (State.readReg s y)) rows)
  | unsupported {w : Word} : Effect depth s (.unsupported w) (State.haltUnsupported s w)

theorem SpriteRows.unique {m : Memory} {n : Nibble} {r0 base : Nat} {rows rows' : List Byte}
    (h : SpriteRows m n r0 base rows) (h' : SpriteRows m n r0 base rows') : rows = rows' := by
  refine List.ext_getElem (h.length_eq.trans h'.length_eq.symm) fun k hk hk' => ?_
  rw [List.getElem_eq_getD 0#8, List.getElem_eq_getD 0#8, h.getD_eq k hk, h'.getD_eq k hk']

/-- `exec_display` at any `PC_WIDTH`. -/
theorem execDisplay_spriteRows (x y n : Nibble) {pw : Nat} (s : State pw) :
    ∃ rows, SpriteRows s.mem n (anchorRow (State.readReg s y)) s.index.toNat rows ∧
      execDisplay x y n s =
        .next (drawSprite s (anchorCol (State.readReg s x)) (anchorRow (State.readReg s y)) rows) := by
  obtain ⟨rows, hnext, hlen, hget⟩ := execDisplay_next x y n s
  refine ⟨rows, ⟨hlen, fun k hk => ?_⟩, hnext⟩
  rw [List.getD_eq_getElem?_getD, hget k hk, Option.getD_some]

/-- Every instruction has an effect in every state. -/
theorem exists_effect (depth : Option Nat) {pw : Nat} (s : State pw) (i : Instr) : ∃ t, Effect depth s i t := by
  cases i with
  | clearScreen => exact ⟨_, .clearScreen⟩
  | leaveSubr =>
    obtain hempty | ⟨st, ret, htop⟩ := List.eq_nil_or_concat' s.stack
    · exact ⟨_, .returnEmpty hempty⟩
    · exact ⟨_, .returnPop htop⟩
  | jump nnn => exact ⟨_, .jump⟩
  | enterSubr nnn =>
    by_cases hfull : depth = some s.stack.length
    · exact ⟨_, .callFull hfull⟩
    · exact ⟨_, .callPush hfull⟩
  | setReg x nn => exact ⟨_, .setReg⟩
  | addToReg x nn => exact ⟨_, .addToReg⟩
  | setIndex nnn => exact ⟨_, .setIndex⟩
  | display x y n =>
    obtain ⟨rows, hrows, _⟩ := execDisplay_spriteRows x y n s
    exact ⟨_, .display hrows⟩
  | unsupported w => exact ⟨_, .unsupported⟩
  | skipIfEq | skipIfNEq | skipIfEqXY | skipIfNEqXY => exact ⟨_, .skip rfl⟩

/-- The dispatch answers the effect. -/
theorem Effect.execWith_eq {c : Config} {s t : State c.pcWidth} {i : Instr} (h : Effect c.stackDepth s i t) :
    execWith c i s = .next t := by
  cases h with
  | returnEmpty hempty => exact execWith_leaveSubr_empty hempty
  | returnPop htop => exact execWith_leaveSubr_pop htop
  | callFull hfull => exact execWith_enterSubr_full _ hfull
  | callPush hroom => exact execWith_enterSubr_push _ hroom
  | skip htest => cases i <;> cases htest <;> rfl
  | @display x y n rows hrows =>
    obtain ⟨rows', hrows', hexec⟩ := execDisplay_spriteRows x y n s
    exact hrows.unique hrows' ▸ hexec
  | clearScreen | jump | setReg | addToReg | setIndex | unsupported => rfl

theorem execWith_eq_next_iff {c : Config} {s t : State c.pcWidth} {i : Instr} :
    execWith c i s = .next t ↔ Effect c.stackDepth s i t := by
  refine ⟨fun h => ?_, Effect.execWith_eq⟩
  obtain ⟨u, hu⟩ := exists_effect c.stackDepth s i
  cases h.symm.trans hu.execWith_eq
  exact hu

theorem exec_eq_next_iff {s t : State} {i : Instr} : exec i s = .next t ↔ Effect (some 16) s i t := by
  rw [← execWith_hardware]
  exact execWith_eq_next_iff (c := hardwareBuild)

/-! ### The effect of a step -/

/-- A step under the parameters `c` takes `s` to `t`: one constructor per way a step can go
(40_execution_engine.md R91 to R97). -/
inductive StepEffect (c : Config) {pw : Nat} (s : State pw) : State pw → Prop
  | ended (hrun : s.run ≠ .running) : StepEffect c s s
  | outOfBounds (hrun : s.run = .running) (hb : s.pc.toNat < 0x200 ∨ 0xFFE < s.pc.toNat) :
      StepEffect c s (State.haltProgramEnd s)
  | misaligned (hrun : s.run = .running) (hlo : 0x200 ≤ s.pc.toNat) (hhi : s.pc.toNat ≤ 0xFFE)
      (hm : misaligned c s.pc = true) : StepEffect c s (State.raiseAbort s .misalignedPC)
  | fetched {t : State pw} (hrun : s.run = .running) (hlo : 0x200 ≤ s.pc.toNat) (hhi : s.pc.toNat ≤ 0xFFE)
      (hm : misaligned c s.pc = false)
      (heffect : Effect c.stackDepth (State.advance s)
        (decodeWith c (bigEndian (Memory.byte s.mem s.pc.toNat) (Memory.byte s.mem (s.pc.toNat + 1)))) t) :
      StepEffect c s t

theorem exists_stepEffect (c : Config) {pw : Nat} (s : State pw) : ∃ t, StepEffect c s t := by
  by_cases hrun : s.run = .running
  · by_cases hb : s.pc.toNat < 0x200 ∨ 0xFFE < s.pc.toNat
    · exact ⟨_, .outOfBounds hrun hb⟩
    · cases hm : misaligned c s.pc with
      | true => exact ⟨_, .misaligned hrun (by omega) (by omega) hm⟩
      | false =>
        obtain ⟨t, heffect⟩ := exists_effect c.stackDepth (State.advance s) (decodeWith c
          (bigEndian (Memory.byte s.mem s.pc.toNat) (Memory.byte s.mem (s.pc.toNat + 1))))
        exact ⟨t, .fetched hrun (by omega) (by omega) hm heffect⟩
  · exact ⟨s, .ended hrun⟩

/-- The engine answers the effect. -/
theorem StepEffect.stepWith_eq {c : Config} {s t : State c.pcWidth} (h : StepEffect c s t) : stepWith c s = .next t := by
  cases h with
  | ended hrun => exact engineStep_ended hrun
  | outOfBounds hrun hb => exact engineStep_outOfBounds hrun hb
  | misaligned hrun hlo hhi hm => exact engineStep_misaligned hrun hlo hhi hm
  | fetched hrun hlo hhi hm heffect =>
    rw [stepWith, engineStep_fetch hrun hlo hhi (by simp [hm]) (bigEndian_toNat _ _), ← advance_eq]
    exact heffect.execWith_eq

theorem stepWith_eq_next_iff {c : Config} {s t : State c.pcWidth} : stepWith c s = .next t ↔ StepEffect c s t := by
  refine ⟨fun h => ?_, StepEffect.stepWith_eq⟩
  obtain ⟨u, hu⟩ := exists_stepEffect c s
  cases h.symm.trans hu.stepWith_eq
  exact hu

theorem step_eq_next_iff {s t : State} : step s = .next t ↔ StepEffect hardwareBuild s t := by
  rw [← stepWith_hardware]
  exact stepWith_eq_next_iff (c := hardwareBuild)

/-- In the hardware build a step that passes both checks fetches from an even PC. -/
theorem fetchesWord_of_aligned {pw : Nat} {s : State pw} (hrun : s.run = .running) (hlo : 0x200 ≤ s.pc.toNat)
    (hhi : s.pc.toNat ≤ 0xFFE) (hm : misaligned hardwareBuild s.pc = false) :
    FetchesWord s (bigEndian (Memory.byte s.mem s.pc.toNat) (Memory.byte s.mem (s.pc.toNat + 1))) := by
  rw [misaligned_hardware, decide_eq_false_iff_not] at hm
  exact fetchesWord_bigEndian hrun hlo hhi (by omega)

/-! ### Runs -/

theorem runWith_succ_of_stepWith {c : Config} {s t : State c.pcWidth} (h : StepEffect c s t) (k : Nat) :
    runWith c (k + 1) s = runWith c k t := by
  rw [runWith, h.stepWith_eq]

/-- What every step keeps, every run keeps. -/
theorem runWith_keeps {c : Config} {P : State c.pcWidth → Prop} (hkeeps : ∀ s t, StepEffect c s t → P s → P t) {k : Nat}
    {s t : State c.pcWidth} (hrun : runWith c k s = .next t) (hs : P s) : P t := by
  induction k generalizing s with
  | zero =>
    cases hrun
    exact hs
  | succ k ih =>
    obtain ⟨u, hu⟩ := exists_stepEffect c s
    exact ih ((runWith_succ_of_stepWith hu k).symm.trans hrun) (hkeeps s u hu hs)

theorem coreRun_succ_of_step {M : Host.Core} {s t : M.State} (h : M.step s = .next t) (k : Nat) :
    M.run (k + 1) s = M.run k t := by
  simp only [Host.Core.run, h]

/-- The host's runs of the hardware build are the parametric ones. -/
theorem coreRun_eq_runWith (k : Nat) (s : State) : Host.Core.run Sys2Proof.core k s = runWith hardwareBuild k s := by
  induction k generalizing s with
  | zero => rfl
  | succ k ih =>
    obtain ⟨t, ht⟩ := exists_stepEffect hardwareBuild s
    exact (coreRun_succ_of_step (M := Sys2Proof.core) (step_eq_next_iff.2 ht) k).trans
      ((ih t).trans (runWith_succ_of_stepWith (c := hardwareBuild) ht k).symm)

end Sys2Proof.Machine

open Sys2Proof Sys2Proof.Machine in
/-- Settles O21: the two effects are total, and the model answers them. -/
theorem everyStepAnswersANextState : Obligations.EveryStepAnswersANextState :=
  ⟨fun c s => (exists_stepEffect c s).imp fun _ => stepWith_eq_next_iff.2,
    fun s => (exists_stepEffect hardwareBuild s).imp fun _ => step_eq_next_iff.2,
    fun c i s => (exists_effect c.stackDepth s i).imp fun _ => execWith_eq_next_iff.2,
    fun i s => (exists_effect (some 16) s i).imp fun _ => exec_eq_next_iff.2⟩
end

section
/-! PROOFS. The invariant: at reset, kept by each operation of a step, and so by every step (10_state.md §2, §5, §6;
43_display.md §3; 60_exceptions.md §1). -/

namespace Sys2Proof.Machine

/-! ### The invariant at reset -/

/-- The reset state over any V and I and any canonical memory; a width too narrow for 0x200 only makes the PC smaller. -/
theorem inv_resetAt {pw : Nat} (v : Vector Byte 16) (index : Addr) {mem : Memory} (hmem : Memory.wf mem = true) :
    Inv (State.resetAt v index mem : State pw) where
  mem_wf := hmem
  run_code := rfl
  abort_code := rfl
  halt_record := ⟨rfl, rfl⟩
  cause := trivial
  stack_bound := Nat.zero_le 16
  stack_entries := fun _ he => absurd he List.not_mem_nil
  pc_bound := ((BitVec.toNat_ofNat ..).trans_le (Nat.mod_le ..)).trans (by decide)
  events_in_grid := fun _ _ _ he => absurd he List.not_mem_nil
  events_flushed := .inl rfl

/-! ### Operations that keep the invariant -/

/-- What the invariant says of each stack entry (10_state.md R27). -/
def IsReturnAddress {pw : Nat} (e : BitVec pw) : Prop := 0x202 ≤ e.toNat ∧ e.toNat ≤ 0x1000 ∧ e.toNat % 2 = 0

theorem haltRecord_iff_zero {pw : Nat} {s : State pw} (hrun : s.run ≠ .haltedUnsupported) :
    HaltRecord s ↔ s.haltWord = 0#16 ∧ s.haltAddr = 0#16 := by
  rw [HaltRecord, if_neg hrun]

section
variable {pw : Nat} {s : State pw} (h : Inv s)

include h

/-- V, I and the grid are no part of the invariant. -/
theorem Inv.with_data (v : Vector Byte 16) (index : Addr) (fb : Framebuffer) :
    Inv { s with v := v, index := index, fb := fb } :=
  ⟨h.mem_wf, h.run_code, h.abort_code, h.halt_record, h.cause, h.stack_bound, h.stack_entries, h.pc_bound,
    h.events_in_grid, h.events_flushed⟩

theorem Inv.emit {es : List SinkEvent} (hgrid : ∀ r c b, SinkEvent.setCell r c b ∈ es → r < 32 ∧ c < 64)
    (hflush : es.getLast? = some .flush) : Inv (State.emit s es) :=
  { h with
    events_in_grid := fun r c b he => (List.mem_append.1 he).elim (h.events_in_grid r c b) (hgrid r c b)
    events_flushed := .inr (by rw [State.emit_events, List.getLast?_append, hflush, Option.some_or]) }

variable (hrun : s.run = .running)

include hrun

theorem Inv.halt_zero : s.haltWord = 0#16 ∧ s.haltAddr = 0#16 :=
  (haltRecord_iff_zero (by simp [hrun])).1 h.halt_record

theorem Inv.abortReason_zero : s.abortReason = 0#3 := by rw [h.abort_code, hrun, reasonOf]

/-- While the block runs, the PC and the stack may take any values in their bounds. -/
theorem Inv.with_control {pc : BitVec pw} {stack : List (BitVec pw)} (hpc : pc.toNat ≤ 0x1002)
    (hlen : stack.length ≤ 16) (hentries : ∀ e ∈ stack, IsReturnAddress e) :
    Inv { s with pc := pc, stack := stack } :=
  { h with
    halt_record := (haltRecord_iff_zero (by simp [hrun])).2 (h.halt_zero hrun)
    cause := by simp only [TerminalCause, hrun]
    pc_bound := hpc, stack_bound := hlen, stack_entries := hentries }

theorem Inv.raiseAbort {r : AbortReason} (hcause : TerminalCause (State.raiseAbort s r)) : Inv (State.raiseAbort s r) :=
  { h with
    run_code := rfl, abort_code := rfl, cause := hcause
    halt_record := (haltRecord_iff_zero (by simp)).2 (h.halt_zero hrun) }

theorem Inv.haltProgramEnd (hb : s.pc.toNat < 0x200 ∨ 0xFFE < s.pc.toNat) : Inv (State.haltProgramEnd s) :=
  { h with
    run_code := rfl, abort_code := h.abortReason_zero hrun, cause := hb
    halt_record := (haltRecord_iff_zero (by simp)).2 (h.halt_zero hrun) }

theorem Inv.haltUnsupported {w : Word} (hrecord : HaltRecord (State.haltUnsupported s w)) :
    Inv (State.haltUnsupported s w) :=
  { h with run_code := rfl, abort_code := h.abortReason_zero hrun, cause := trivial, halt_record := hrecord }

end

/-! ### Bounds of what a step writes -/

theorem target_le {pw : Nat} (nnn : Addr) : (target nnn : BitVec pw).toNat ≤ 0xFFF := by
  rw [target_eq, BitVec.toNat_ofNat]
  exact (Nat.mod_le ..).trans (Nat.le_of_lt_succ nnn.isLt)

theorem advance_pc_le {pw : Nat} (s : State pw) : (State.advance s).pc.toNat ≤ s.pc.toNat + 2 := by
  rw [advance_eq]
  exact (BitVec.toNat_ofNat ..).trans_le (Nat.mod_le ..)

/-- Every event of the drawn rectangle names a cell of the grid (43_display.md R143, R144, R163). -/
theorem SpriteRows.rectEvents_in_grid {m : Memory} {n : Nibble} {r0 c0 base : Nat} {rows : List Byte} {fb : Framebuffer}
    (hrows : SpriteRows m n r0 base rows) (hr : r0 < 32) (hc : c0 < 64) (r c : Nat) (b : Bool)
    (he : SinkEvent.setCell r c b ∈ rectEvents fb r0 c0 rows.length (drawWidth c0)) : r < 32 ∧ c < 64 := by
  obtain ⟨r', c', hr', hc', heq⟩ := mem_rectEvents.1 he
  cases heq
  have hbottom := hrows.bottom_le hr
  have hright := (drawWidth_bound hc).1
  omega

/-! ### The step -/

/-- An instruction keeps the invariant when it starts, as in a step, from a running state whose PC is past the fetched
word, and when a halt would record that word. -/
theorem Effect.keeps_inv {pw : Nat} {s t : State pw} {i : Instr} (h : Effect (some 16) s i t) (hinv : Inv s)
    (hrun : s.run = .running) (hpc : IsReturnAddress s.pc)
    (hhalt : ∀ w, i = .unsupported w → HaltRecord (State.haltUnsupported s w)) : Inv t := by
  cases h with
  | clearScreen => exact (hinv.with_data s.v s.index Framebuffer.blank).emit (by simp) rfl
  | returnEmpty hempty => exact hinv.raiseAbort hrun hempty
  | @returnPop st ret htop =>
    have hmem : ∀ e ∈ st ++ [ret], IsReturnAddress e := htop ▸ hinv.stack_entries
    obtain ⟨_, hret, _⟩ := hmem ret (by simp)
    have hlen : s.stack.dropLast.length ≤ 16 := by
      have := hinv.stack_bound
      rw [List.length_dropLast]
      omega
    exact hinv.with_control hrun (by omega) hlen fun e he => hinv.stack_entries e (List.mem_of_mem_dropLast he)
  | @jump nnn =>
    exact hinv.with_control hrun ((target_le nnn).trans (by decide)) hinv.stack_bound hinv.stack_entries
  | callFull hfull => exact hinv.raiseAbort hrun (Option.some.inj hfull).symm
  | @callPush nnn hroom =>
    have hlen : (s.stack ++ [s.pc]).length ≤ 16 := by
      have := hinv.stack_bound
      have : (16 : Nat) ≠ s.stack.length := fun heq => hroom (congrArg some heq)
      rw [List.length_append, List.length_singleton]
      omega
    refine hinv.with_control hrun ((target_le nnn).trans (by decide)) hlen fun e he => ?_
    obtain he | he := List.mem_append.1 he
    · exact hinv.stack_entries e he
    · cases List.mem_singleton.1 he
      exact hpc
  | @skip _ b htest =>
    cases b with
    | false => exact hinv
    | true =>
      have := advance_pc_le s
      obtain ⟨_, hhi, _⟩ := hpc
      exact hinv.with_control hrun (pc := (State.advance s).pc) (by omega) hinv.stack_bound hinv.stack_entries
  | setReg => exact hinv.with_data _ s.index s.fb
  | addToReg => exact hinv.with_data _ s.index s.fb
  | setIndex => exact hinv.with_data s.v _ s.fb
  | display hrows =>
    refine (hinv.with_data _ s.index _).emit (fun r c b he => ?_) (by simp)
    obtain he | he := List.mem_append.1 he
    · exact hrows.rectEvents_in_grid (anchorRow_lt _) (anchorCol_lt _) r c b he
    · cases List.mem_singleton.1 he
  | unsupported => exact hinv.haltUnsupported hrun (hhalt _ rfl)

/-- The halt at the word a step fetched records that word and its address (40_execution_engine.md R99). -/
theorem haltRecord_of_fetchesWord {s : State} {w u : Word} (hfetch : FetchesWord s w) (hdec : decode w = .unsupported u) :
    HaltRecord (State.haltUnsupported (State.advance s) u) := by
  obtain rfl := eq_of_decodeWith_eq_unsupported hdec
  have haddr : (State.haltUnsupported (State.advance s) w).haltAddr = s.pc := by simp
  have hword := fetchesWord_eq hfetch
  obtain ⟨_, _, hhi, _, _⟩ := hfetch
  rw [HaltRecord, if_pos (State.haltUnsupported_run ..), haddr]
  refine ⟨?_, hdec, advance_pc_toNat (by decide) hhi⟩
  rw [State.haltUnsupported_haltWord, hword]
  exact Memory.fetch16_ok (by simp only [memSize]; omega)

theorem StepEffect.keeps_inv {s t : State} (h : StepEffect hardwareBuild s t) (hinv : Inv s) : Inv t := by
  cases h with
  | ended => exact hinv
  | outOfBounds hrun hb => exact hinv.haltProgramEnd hrun hb
  | misaligned hrun hlo hhi hm => exact hinv.raiseAbort hrun ⟨hlo, hhi, ((misaligned_iff _ _).1 hm).1⟩
  | fetched hrun hlo hhi hm heffect =>
    have hfetch := fetchesWord_of_aligned hrun hlo hhi hm
    have ⟨_, _, _, heven, _⟩ := hfetch
    have hpc : (State.advance s).pc.toNat = s.pc.toNat + 2 := advance_pc_toNat (by decide) hhi
    have hadvanced : Inv (State.advance s) :=
      hinv.with_control hrun (pc := (State.advance s).pc) (by omega) hinv.stack_bound hinv.stack_entries
    exact heffect.keeps_inv hadvanced hrun ⟨by omega, by omega, by omega⟩ fun u hdec =>
      haltRecord_of_fetchesWord hfetch hdec

end Sys2Proof.Machine

open Sys2Proof Sys2Proof.Machine in
/-- Settles O6: by the cases of the step, each one of the operations that keep the invariant. -/
theorem stepKeepsTheInvariant : Obligations.StepKeepsTheInvariant :=
  fun _ _ hinv hstep => (step_eq_next_iff.1 hstep).keeps_inv hinv

open Sys2Proof Sys2Proof.Machine in
/-- Settles O3: every reset, the hardware build's among them, fills a canonical memory. -/
theorem resetMeetsTheInvariant : Obligations.ResetMeetsTheInvariant :=
  ⟨inv_resetAt _ _ reset_mem_wf, fun c => inv_resetAt _ _ (resetMem_wf c)⟩
end

section
/-! PROOFS. The encoder and the opcode table (30_encoding.md §3 to §7): decode after encode and encode after decode, the
table's rows in any order, and the assembled program in memory. -/

namespace Sys2Proof

/-! ### The table in any order -/

/-- Two rows whose patterns differ under both masks match no word in common. -/
theorem OpcodeRow.not_hits_both {r q : OpcodeRow} (hdiff : r.pattern &&& q.mask ≠ q.pattern &&& r.mask) (w : Word) :
    ¬ (r.hits w = true ∧ q.hits w = true) := by
  rintro ⟨hr, hq⟩
  rw [hits, beq_iff_eq] at hr hq
  exact hdiff (by rw [← hr, ← hq]; ac_rfl)

theorem opcodeTable_patterns_differ (c : Config) :
    (opcodeTable c).Pairwise fun r q => r.pattern &&& q.mask ≠ q.pattern &&& r.mask := by
  rw [opcodeTable, family0Mask, rrMask]
  cases c.family0Strict <;> cases c.strictLowNibble59 <;> decide

theorem opcodeTable_disjoint (c : Config) :
    (opcodeTable c).Pairwise fun r q => ∀ w, ¬ (r.hits w = true ∧ q.hits w = true) :=
  (opcodeTable_patterns_differ c).imp OpcodeRow.not_hits_both

/-- Disjoint rows may be tried in any order. -/
theorem lookupRow_perm {rows rows' : List OpcodeRow} (hperm : rows.Perm rows')
    (hdisjoint : rows.Pairwise fun r q => ∀ w, ¬ (r.hits w = true ∧ q.hits w = true)) (w : Word) :
    lookupRow rows w = lookupRow rows' w := by
  induction hperm with
  | nil => rfl
  | cons r _ ih => rw [lookupRow, lookupRow, ih hdisjoint.of_cons]
  | swap r q rows =>
    have hboth : ¬ (q.hits w = true ∧ r.hits w = true) := List.rel_of_pairwise_cons hdisjoint (by simp) w
    simp only [lookupRow]
    split_ifs with hq hr
    · exact absurd ⟨hq, hr⟩ hboth
    all_goals rfl
  | trans hperm _ ih ih' =>
    exact (ih hdisjoint).trans (ih' (hdisjoint.perm hperm fun h w hw => h w hw.symm))

/-- The family-by-family decoder and the first matching row name the same instruction (R64, R75). -/
theorem lookupRow_opcodeTable_eq_mnemonic (c : Config) (w : Word) :
    lookupRow (opcodeTable c) w = (decodeWith c w).mnemonic := by
  rw [lookupRow_opcodeTable]
  simp only [decodeWith, decodeFamily0_eq, lowNibbleRefused_iff, apply_ite Instr.mnemonic, ← BitVec.toNat_inj,
    familyOf_toNat, BitVec.toNat_ofNat, Nat.reducePow, Nat.reduceMod]
  rfl

/-! ### Unsupported words -/

theorem any_hits_of_lookupRow {rows : List OpcodeRow} {w : Word} (hnames : ∀ r ∈ rows, r.mnemonic ≠ "Unsupported")
    (h : lookupRow rows w = "Unsupported") : rows.any (fun r => r.hits w) = false := by
  induction rows with
  | nil => rfl
  | cons r rows ih =>
    rw [List.forall_mem_cons] at hnames
    rw [lookupRow] at h
    split at h
    next => exact absurd h hnames.1
    next hmiss => rw [List.any_cons, ih hnames.2 h, Bool.or_false, Bool.eq_false_iff.2 hmiss]

theorem opcodeTable_mnemonic_ne (c : Config) : ∀ r ∈ opcodeTable c, r.mnemonic ≠ "Unsupported" := by
  simp [opcodeTable]

theorem eq_unsupported_of_mnemonic {i : Instr} (h : i.mnemonic = "Unsupported") : ∃ w, i = .unsupported w := by
  cases i with
  | unsupported w => exact ⟨w, rfl⟩
  | _ => simp [Instr.mnemonic] at h

/-- A word decodes to the catch-all exactly when it matches no row (R74, R76). -/
theorem decodeWith_eq_unsupported_iff (c : Config) (w : Word) :
    decodeWith c w = .unsupported w ↔ (Instr.unsupported w).wfWith c = true := by
  rw [Instr.wfWith, Bool.not_eq_true']
  constructor <;> intro h
  · exact any_hits_of_lookupRow (opcodeTable_mnemonic_ne c)
      (by rw [lookupRow_opcodeTable_eq_mnemonic, h, Instr.mnemonic])
  · obtain ⟨u, hu⟩ := eq_unsupported_of_mnemonic
      ((lookupRow_opcodeTable_eq_mnemonic c w).symm.trans (Laws.EncodingRow.lookupRow_none h))
    rw [hu, eq_of_decodeWith_eq_unsupported hu]

theorem wfWith_decodeWith (c : Config) (w : Word) : (decodeWith c w).wfWith c = true := by
  cases h : decodeWith c w with
  | unsupported u =>
    obtain rfl := eq_of_decodeWith_eq_unsupported h
    exact (decodeWith_eq_unsupported_iff c w).1 h
  | _ => rfl

/-! ### Decode after encode -/

theorem decodeWith_encode (c : Config) {i : Instr} (hwf : i.wfWith c = true) : decodeWith c (encode i) = i := by
  cases i with
  | clearScreen => rw [encode, decodeWith_family0 (by decide), decodeFamily0_eq]; simp
  | leaveSubr => rw [encode, decodeWith_family0 (by decide), decodeFamily0_eq]; simp
  | jump nnn => rw [encode, decodeWith_family1 (familyOf_wordA ..), fieldNNN_wordA]
  | enterSubr nnn => rw [encode, decodeWith_family2 (familyOf_wordA ..), fieldNNN_wordA]
  | skipIfEq x nn => rw [encode, decodeWith_family3 (familyOf_wordRI ..), fieldX_wordRI, fieldNN_wordRI]
  | skipIfNEq x nn => rw [encode, decodeWith_family4 (familyOf_wordRI ..), fieldX_wordRI, fieldNN_wordRI]
  | skipIfEqXY x y =>
    rw [encode, decodeWith_family5 (familyOf_wordRRN ..), ← fieldN_toNat, fieldN_wordRRN, fieldX_wordRRN, fieldY_wordRRN,
      if_neg (by simp)]
  | setReg x nn => rw [encode, decodeWith_family6 (familyOf_wordRI ..), fieldX_wordRI, fieldNN_wordRI]
  | addToReg x nn => rw [encode, decodeWith_family7 (familyOf_wordRI ..), fieldX_wordRI, fieldNN_wordRI]
  | skipIfNEqXY x y =>
    rw [encode, decodeWith_family9 (familyOf_wordRRN ..), ← fieldN_toNat, fieldN_wordRRN, fieldX_wordRRN, fieldY_wordRRN,
      if_neg (by simp)]
  | setIndex nnn => rw [encode, decodeWith_familyA (familyOf_wordA ..), fieldNNN_wordA]
  | display x y n =>
    rw [encode, decodeWith_familyD (familyOf_wordRRN ..), fieldX_wordRRN, fieldY_wordRRN, fieldN_wordRRN]
  | unsupported w => exact (decodeWith_eq_unsupported_iff c w).2 hwf

/-! ### Encode after decode -/

theorem wordA_fields {w : Word} {f : Nibble} (h : familyOf w = f) : f ++ fieldNNN w = w := by
  apply BitVec.eq_of_toNat_eq
  rw [wordA_toNat, ← h, familyOf_toNat, fieldNNN_toNat]
  omega

theorem wordRI_fields {w : Word} {f : Nibble} (h : familyOf w = f) : f ++ fieldX w ++ fieldNN w = w := by
  apply BitVec.eq_of_toNat_eq
  rw [wordRI_toNat, ← h, familyOf_toNat, fieldX_toNat, fieldNN_toNat]
  omega

theorem wordRRN_fields {w : Word} {f n : Nibble} (h : familyOf w = f) (hn : fieldN w = n) :
    f ++ fieldX w ++ fieldY w ++ n = w := by
  apply BitVec.eq_of_toNat_eq
  rw [wordRRN_toNat, ← h, ← hn, familyOf_toNat, fieldX_toNat, fieldY_toNat, fieldN_toNat]
  omega

theorem fieldN_of_not_lowNibbleRefused {w : Word} (h : ¬ lowNibbleRefused hardwareBuild w = true) : fieldN w = 0x0#4 := by
  simpa [lowNibbleRefused, hardwareBuild] using h

/-- What the instruction a word decodes to says of the word: all of it, but in family 0x0 only the low byte. -/
def DecodedFrom (w : Word) : Instr → Prop
  | .clearScreen => w.toNat < 4096 ∧ w.toNat % 256 = 0xE0
  | .leaveSubr => w.toNat < 4096 ∧ w.toNat % 256 = 0xEE
  | i => encode i = w

theorem decodedFrom_ite {p : Prop} [Decidable p] {w : Word} {i j : Instr} (hi : p → DecodedFrom w i)
    (hj : ¬ p → DecodedFrom w j) : DecodedFrom w (if p then i else j) := by
  split
  next hp => exact hi hp
  next hp => exact hj hp

theorem decodedFrom_decodeFamily0 (c : Config) {w : Word} (h : familyOf w = 0x0#4) :
    DecodedFrom w (decodeFamily0 c w) := by
  have hfam := congrArg BitVec.toNat h
  rw [familyOf_toNat, BitVec.toNat_ofNat] at hfam
  rw [decodeFamily0_eq]
  exact decodedFrom_ite (fun _ => rfl) fun _ => decodedFrom_ite (fun hclear => ⟨by omega, hclear⟩) fun _ =>
    decodedFrom_ite (fun hleave => ⟨by omega, hleave⟩) fun _ => rfl

theorem decodedFrom_lowNibble {w : Word} {i : Instr} (h : fieldN w = 0x0#4 → DecodedFrom w i) :
    DecodedFrom w (if lowNibbleRefused hardwareBuild w then .unsupported w else i) :=
  decodedFrom_ite (fun _ => rfl) fun hlow => h (fieldN_of_not_lowNibbleRefused hlow)

theorem decodedFrom_decode (w : Word) : DecodedFrom w (decode w) := by
  rw [decode, decodeWith]
  exact decodedFrom_ite (decodedFrom_decodeFamily0 _) fun _ =>
    decodedFrom_ite wordA_fields fun _ =>
    decodedFrom_ite wordA_fields fun _ =>
    decodedFrom_ite wordRI_fields fun _ =>
    decodedFrom_ite wordRI_fields fun _ =>
    decodedFrom_ite (fun h => decodedFrom_lowNibble (wordRRN_fields h)) fun _ =>
    decodedFrom_ite wordRI_fields fun _ =>
    decodedFrom_ite wordRI_fields fun _ =>
    decodedFrom_ite (fun h => decodedFrom_lowNibble (wordRRN_fields h)) fun _ =>
    decodedFrom_ite wordA_fields fun _ =>
    decodedFrom_ite (fun h => wordRRN_fields h rfl) fun _ => rfl

/-! ### Words in memory -/

/-- A word is its two bytes, the lower address first (20_memory.md R41). -/
theorem bigEndian_field (w : Word) : bigEndian (field w 8 8) (field w 0 8) = w := by
  apply BitVec.eq_of_toNat_eq
  rw [Machine.bigEndian_toNat]
  simp [field, BitVec.extractLsb'_toNat, Nat.shiftRight_eq_div_pow]
  omega

end Sys2Proof

open Sys2Proof in
/-- Settles O9: the encoder's word is in the instruction's family and has its operands; a stream adds the byte order. -/
theorem decodeOfEncodeIsTheInstruction : Obligations.DecodeOfEncodeIsTheInstruction := by
  refine ⟨fun c i hwf => ⟨decodeWith_encode c hwf, fun rest => ?_⟩, fun c bs hshort => ?_⟩
  · change Except.ok (decodeWith c (bigEndian (field (encode i) 8 8) (field (encode i) 0 8)), rest) = _
    rw [bigEndian_field, decodeWith_encode c hwf]
  · match bs, hshort with
    | [], _ => rfl
    | [_], _ => rfl

open Sys2Proof in
/-- Settles O10: the decoded instruction is well-formed, and what it says of the word is the whole word or its low byte. -/
theorem encodeOfDecodeIsTheWord : Obligations.EncodeOfDecodeIsTheWord := by
  intro w
  have hfrom := decodedFrom_decode w
  refine ⟨wfWith_decodeWith hardwareBuild w, fun hclear hleave => ?_, ?_⟩
  · cases hdec : decode w with
    | clearScreen => exact absurd hdec hclear
    | leaveSubr => exact absurd hdec hleave
    | _ => rwa [hdec] at hfrom
  · rintro (hdec | hdec) <;> rw [hdec] at hfrom ⊢ <;> exact ⟨hfrom.2.symm, hfrom.1⟩

open Sys2Proof in
/-- Settles O11: rows that differ under both masks are disjoint, and disjoint rows commute. -/
theorem tableLookupAgreesWithTheDecoderInAnyOrder : Obligations.TableLookupAgreesWithTheDecoderInAnyOrder :=
  fun c => ⟨opcodeTable_disjoint c, fun _ hperm w =>
    (lookupRow_perm hperm.symm (opcodeTable_disjoint c) w).symm.trans (lookupRow_opcodeTable_eq_mnemonic c w)⟩

namespace Sys2Proof.Machine

/-! ### Assembled programs -/

theorem assemble_insn_cons (i : Instr) (is : List Instr) :
    assemble ((i :: is).map AsmLine.insn) =
      field (encode i) 8 8 :: field (encode i) 0 8 :: assemble (is.map AsmLine.insn) := rfl

theorem length_assemble_insn (is : List Instr) : (assemble (is.map AsmLine.insn)).length = 2 * is.length := by
  induction is with
  | nil => rfl
  | cons i is ih =>
    rw [assemble_insn_cons, List.length_cons, List.length_cons, ih, List.length_cons]
    omega

/-- The `k`-th instruction's bytes are the `2k`-th and the one after it. -/
theorem getElem?_assemble_insn {is : List Instr} {k : Nat} {i : Instr} (hk : is[k]? = some i) :
    (assemble (is.map AsmLine.insn))[2 * k]? = some (field (encode i) 8 8) ∧
      (assemble (is.map AsmLine.insn))[2 * k + 1]? = some (field (encode i) 0 8) := by
  induction is generalizing k with
  | nil => cases hk
  | cons j is ih =>
    rw [assemble_insn_cons]
    cases k with
    | zero =>
      cases hk
      exact ⟨rfl, rfl⟩
    | succ k => exact ih hk

/-- The booted block fetches the `k`-th instruction's word from `0x200 + 2k` (70_reset_and_hazards.md R193). -/
theorem bootedWith_assemble_fetchesWord {is : List Instr} (hfit : is.length ≤ 1792) {k : Nat} {i : Instr}
    (hk : is[k]? = some i) :
    FetchesWord { bootedWith hardwareBuild (assemble (is.map AsmLine.insn)) with pc := BitVec.ofNat 16 (0x200 + 2 * k) }
      (encode i) := by
  have hlen := length_assemble_insn is
  have hlt : k < is.length := (List.getElem?_eq_some_iff.1 hk).1
  obtain ⟨hhi, hlo⟩ := getElem?_assemble_insn hk
  have hpc : (BitVec.ofNat 16 (0x200 + 2 * k)).toNat = 0x200 + 2 * k := by
    rw [BitVec.toNat_ofNat]
    omega
  have hbyte {j : Nat} {b : Byte} (hj : (assemble (is.map AsmLine.insn))[j]? = some b) :
      Memory.byte (bootedWith hardwareBuild (assemble (is.map AsmLine.insn))).mem (0x200 + j) = b := by
    obtain ⟨hj, hb⟩ := List.getElem?_eq_some_iff.1 hj
    rw [byte_bootedWith hardwareBuild (by omega) hj, hb]
  simp only [FetchesWord, hpc]
  refine ⟨rfl, by omega, by omega, by omega, ?_⟩
  rw [hbyte hhi, Nat.add_assoc, hbyte hlo, ← bigEndian_toNat, bigEndian_field]

end Sys2Proof.Machine

open Sys2Proof Sys2Proof.Machine in
/-- Settles O12: the word fetched from the instruction's place is its encoding. -/
theorem assembledInstructionsAreFetchedInOrder : Obligations.AssembledInstructionsAreFetchedInOrder := by
  intro is hwf hfit
  have hlen := length_assemble_insn is
  refine ⟨_, bootWith_eq_bootedWith hardwareBuild (by omega), fun k i hk => ⟨encode i, ?_, ?_⟩⟩
  · exact bootedWith_assemble_fetchesWord hfit hk
  · exact decodeWith_encode hardwareBuild (hwf i (List.mem_of_getElem? hk))

open Sys2Proof Sys2Proof.Machine in
/-- Settles O14: the step runs what the word decodes to. -/
theorem stepRunsTheEncodedInstruction : Obligations.StepRunsTheEncodedInstruction := by
  intro s i hwf hfetch
  rw [step_of_fetchesWord hfetch, decode, decodeWith_encode hardwareBuild hwf]
end

section
/-! PROOFS. Frames: for each part of the state the instructions that write it, and what follows for each kind of
instruction, for a step and for a run (10_state.md §1 to §7, 20_memory.md R47, 43_display.md §3). -/

namespace Sys2Proof.Machine

/-! ### The writers of each part of the state -/

/-- A skip writes the PC only. -/
theorem skip_eq_setPc {pw : Nat} (b : Bool) (s : State pw) :
    (if b then State.advance s else s) = State.setPc s (if b then s.pc + 2#pw else s.pc) := by
  cases b <;> rfl

/-- The instructions that leave the PC where the advance has put it (10_state.md §2). -/
def KeepsPc : Instr → Prop
  | .clearScreen | .setReg _ _ | .addToReg _ _ | .setIndex _ | .display _ _ _ | .unsupported _ => True
  | .leaveSubr | .jump _ | .enterSubr _ | .skipIfEq _ _ | .skipIfNEq _ _ | .skipIfEqXY _ _ | .skipIfNEqXY _ _ => False

theorem not_keepsPc_of_skipTest {V : Nibble → Byte} {i : Instr} {b : Bool} (h : skipTest V i = some b) : ¬ KeepsPc i := by
  intro hkeeps
  cases i with
  | skipIfEq | skipIfNEq | skipIfEqXY | skipIfNEqXY => exact hkeeps
  | _ => cases h

section
variable {depth : Option Nat} {pw : Nat} {s t : State pw} {i : Instr} (h : Effect depth s i t)

include h

theorem Effect.regsKept : RegsKept s t (regsWritten i) := by
  cases h with
  | setReg => exact regsKept_writeReg s _ _
  | addToReg => exact regsKept_writeReg s _ _
  | display => exact regsKept_drawSprite s _ _ _
  | skip =>
    rw [skip_eq_setPc]
    exact fun _ _ => rfl
  | _ => exact fun _ _ => rfl

theorem Effect.mem_eq : t.mem = s.mem := by
  cases h with
  | skip => rw [skip_eq_setPc, State.setPc_mem]
  | _ => rfl

theorem Effect.index_eq (hindex : ∀ nnn, i ≠ .setIndex nnn) : t.index = s.index := by
  cases h with
  | setIndex => exact absurd rfl (hindex _)
  | skip => rw [skip_eq_setPc, State.setPc_index]
  | _ => rfl

theorem Effect.pc_eq (hkeeps : KeepsPc i) : t.pc = s.pc := by
  cases h with
  | jump | callPush | returnPop => exact hkeeps.elim
  | skip htest => exact absurd hkeeps (not_keepsPc_of_skipTest htest)
  | _ => rfl

theorem Effect.stack_eq (hreturn : i ≠ .leaveSubr) (hcall : ∀ nnn, i ≠ .enterSubr nnn) : t.stack = s.stack := by
  cases h with
  | returnPop => exact absurd rfl hreturn
  | callPush => exact absurd rfl (hcall _)
  | skip => rw [skip_eq_setPc, State.setPc_stack]
  | _ => rfl

theorem Effect.fb_eq (hclear : i ≠ .clearScreen) (hdisplay : ∀ x y n, i ≠ .display x y n) : t.fb = s.fb := by
  cases h with
  | clearScreen => exact absurd rfl hclear
  | display => exact absurd rfl (hdisplay _ _ _)
  | skip => rw [skip_eq_setPc, State.setPc_fb]
  | _ => rfl

theorem Effect.statusKept (hhalt : ∀ w, i ≠ .unsupported w) (hreturn : i = .leaveSubr → s.stack ≠ [])
    (hcall : ∀ nnn, i = .enterSubr nnn → depth ≠ some s.stack.length) : StatusKept s t := by
  cases h with
  | unsupported => exact absurd rfl (hhalt _)
  | returnEmpty hempty => exact absurd hempty (hreturn rfl)
  | callFull hfull => exact absurd hfull (hcall _ rfl)
  | skip =>
    rw [skip_eq_setPc]
    exact ⟨rfl, rfl, rfl, rfl, rfl⟩
  | _ => exact ⟨rfl, rfl, rfl, rfl, rfl⟩

/-- An abort writes no halt record (60_exceptions.md R172). -/
theorem Effect.haltRecord_eq (hhalt : ∀ w, i ≠ .unsupported w) : t.haltWord = s.haltWord ∧ t.haltAddr = s.haltAddr := by
  cases h with
  | unsupported => exact absurd rfl (hhalt _)
  | skip =>
    rw [skip_eq_setPc]
    exact ⟨rfl, rfl⟩
  | _ => exact ⟨rfl, rfl⟩

/-- The stream grows by a flushed sequence of the display instructions, or not at all (43_display.md R160). -/
theorem Effect.events_cases :
    t.events = s.events ∨
      (i = .clearScreen ∨ ∃ x y n, i = .display x y n) ∧ ∃ es, t.events = s.events ++ es ++ [.flush] ∧
        ∀ r c b, SinkEvent.setCell r c b ∈ es → r < 32 ∧ c < 64 := by
  cases h with
  | clearScreen => exact .inr ⟨.inl rfl, [.clearAll], by simp, by simp⟩
  | display hrows =>
    exact .inr ⟨.inr ⟨_, _, _, rfl⟩, _, (drawSprite_events ..).trans (List.append_assoc ..).symm,
      hrows.rectEvents_in_grid (anchorRow_lt _) (anchorCol_lt _)⟩
  | skip => exact .inl (by rw [skip_eq_setPc, State.setPc_events])
  | _ => exact .inl rfl

theorem Effect.events_eq (hclear : i ≠ .clearScreen) (hdisplay : ∀ x y n, i ≠ .display x y n) : t.events = s.events := by
  obtain heq | ⟨hclear' | ⟨x, y, n, hdisplay'⟩, _⟩ := h.events_cases
  · exact heq
  · exact absurd hclear' hclear
  · exact absurd hdisplay' (hdisplay x y n)

/-- Only a call on a full stack overflows it. -/
theorem Effect.not_stackOverflow (hroom : depth ≠ some s.stack.length) (hs : s.run ≠ .aborted .stackOverflow) :
    t.run ≠ .aborted .stackOverflow := by
  cases h with
  | callFull hfull => exact absurd hfull hroom
  | returnEmpty => simp
  | unsupported => simp
  | skip => rwa [skip_eq_setPc, State.setPc_run]
  | _ => exact hs

end

/-! ### Steps -/

/-- A step of the hardware build either touches `run` and its two codes only, or runs the word it fetches. -/
theorem StepEffect.fetch_cases {s t : State} (h : StepEffect hardwareBuild s t) :
    t = { s with run := t.run, runState := t.runState, abortReason := t.abortReason } ∨
      ∃ w, FetchesWord s w ∧ Effect (some 16) (State.advance s) (decode w) t := by
  cases h with
  | ended => exact .inl rfl
  | outOfBounds => exact .inl rfl
  | misaligned => exact .inl rfl
  | fetched hrun hlo hhi hm heffect => exact .inr ⟨_, fetchesWord_of_aligned hrun hlo hhi hm, heffect⟩

theorem effect_of_fetchesWord {s t : State} {w : Word} (hfetch : FetchesWord s w) (hstep : step s = .next t) :
    Effect (some 16) (State.advance s) (decode w) t :=
  exec_eq_next_iff.1 ((step_advance_of_fetchesWord hfetch).symm.trans hstep)

theorem StepEffect.mem_eq {c : Config} {pw : Nat} {s t : State pw} (h : StepEffect c s t) : t.mem = s.mem := by
  cases h with
  | fetched _ _ _ _ heffect => exact heffect.mem_eq
  | _ => rfl

theorem StepEffect.not_stackOverflow {c : Config} (hdepth : c.stackDepth = none) {pw : Nat} {s t : State pw}
    (h : StepEffect c s t) (hs : s.run ≠ .aborted .stackOverflow) : t.run ≠ .aborted .stackOverflow := by
  cases h with
  | ended => exact hs
  | outOfBounds => simp
  | misaligned => simp
  | fetched _ _ _ _ heffect => exact heffect.not_stackOverflow (by simp [hdepth]) hs

/-! ### Runs -/

theorem mem_eq_of_runWith {c : Config} {k : Nat} {s t : State c.pcWidth} (h : runWith c k s = .next t) :
    t.mem = s.mem :=
  runWith_keeps (P := fun u => u.mem = s.mem) (fun _ _ hstep hmem => hstep.mem_eq.trans hmem) h rfl

theorem memoryKept_of_mem_eq {pw : Nat} {s t : State pw} (h : t.mem = s.mem) : MemoryKept s t := fun a => by rw [h]

theorem gridKept_of_fb_eq {pw : Nat} {s t : State pw} (h : t.fb = s.fb) : GridKept s t := fun r c => by rw [h]

end Sys2Proof.Machine

open Sys2Proof Sys2Proof.Machine in
/-- Settles O45: no effect writes memory, and runs are steps. -/
theorem noInstructionWritesMemory : Obligations.NoInstructionWritesMemory :=
  ⟨fun _ _ _ _ h => memoryKept_of_mem_eq (execWith_eq_next_iff.1 h).mem_eq,
    fun _ _ _ h => memoryKept_of_mem_eq (exec_eq_next_iff.1 h).mem_eq,
    fun k s _ h => memoryKept_of_mem_eq (mem_eq_of_runWith (c := hardwareBuild) ((coreRun_eq_runWith k s).symm.trans h)),
    fun _ _ _ _ h => memoryKept_of_mem_eq (mem_eq_of_runWith h)⟩

open Sys2Proof Sys2Proof.Machine in
/-- Settles O29: without a depth no call finds the stack full, in any step of the run. -/
theorem unboundedStackNeverOverflows : Obligations.UnboundedStackNeverOverflows :=
  fun _ _ _ _ hdepth hs hrun => runWith_keeps (fun _ _ hstep => hstep.not_stackOverflow hdepth) hrun hs

open Sys2Proof Sys2Proof.Machine in
/-- Settles O46: a part that has changed was written by the fetched instruction, so that one is among its writers. -/
theorem eachStateHasItsWritersOnly : Obligations.EachStateHasItsWritersOnly := by
  intro s t hstep
  obtain hkept | ⟨w, hfetch, heffect⟩ := (step_eq_next_iff.1 hstep).fetch_cases
  · rw [hkept]
    exact ⟨fun r hne => absurd rfl hne, fun hne => absurd rfl hne, fun hne => absurd rfl hne, fun hne => absurd rfl hne⟩
  · refine ⟨fun r hne => ⟨w, hfetch, ?_⟩, fun hne => ?_, fun hne => ⟨w, hfetch, ?_⟩, fun hne => ⟨w, hfetch, ?_⟩⟩ <;>
      by_contra hno
    · exact hne (heffect.regsKept r hno)
    · exact hne (heffect.index_eq fun nnn hdec => hno ⟨w, nnn, hfetch, hdec⟩)
    · exact hne (heffect.fb_eq (fun hdec => hno (.inl hdec)) fun x y n hdec => hno (.inr ⟨x, y, n, hdec⟩))
    · exact hne (heffect.stack_eq (fun hdec => hno (.inl hdec)) fun nnn hdec => hno (.inr ⟨nnn, hdec⟩))

open Sys2Proof Sys2Proof.Machine in
/-- Settles O47: the events of the fetched instruction, for a checked step emits none. -/
theorem everyEventSequenceEndsWithFlush : Obligations.EveryEventSequenceEndsWithFlush := by
  intro s t hstep
  obtain hkept | ⟨w, hfetch, heffect⟩ := (step_eq_next_iff.1 hstep).fetch_cases
  · exact .inl (by rw [hkept])
  · obtain heq | ⟨hinstr, es, hevents, hgrid⟩ := heffect.events_cases
    · exact .inl heq
    · exact .inr ⟨es, w, hevents, hfetch, hinstr, hgrid⟩

open Sys2Proof Sys2Proof.Machine in
/-- Settles O41: the three instructions write a register or I, and are the writers of nothing else. -/
theorem registerInstructionsFrame : Obligations.RegisterInstructionsFrame := by
  intro i s t hi hexec
  cases exec_eq_next_iff.1 hexec with
  | setReg | addToReg =>
    exact ⟨regsKept_writeReg s _ _, fun _ => rfl, rfl, rfl, ⟨rfl, rfl, rfl, rfl, rfl⟩, fun _ _ => rfl, fun _ => rfl, rfl⟩
  | setIndex =>
    exact ⟨fun _ _ => rfl, fun hne => absurd rfl (hne _), rfl, rfl, ⟨rfl, rfl, rfl, rfl, rfl⟩, fun _ _ => rfl,
      fun _ => rfl, rfl⟩
  | skip htest => obtain ⟨_, _, rfl⟩ | ⟨_, _, rfl⟩ | ⟨_, rfl⟩ := hi <;> cases htest
  | _ => simp at hi

open Sys2Proof Sys2Proof.Machine in
/-- Settles O42: the control transfers write the PC, a call and a return the stack, and `run` only to abort. -/
theorem controlTransfersFrame : Obligations.ControlTransfersFrame := by
  intro i s t hi hexec
  have heffect := exec_eq_next_iff.1 hexec
  have hregs : regsWritten i = [] := by
    obtain rfl | ⟨_, rfl⟩ | ⟨_, rfl⟩ | ⟨_, _, rfl⟩ | ⟨_, _, rfl⟩ | ⟨_, _, rfl⟩ | ⟨_, _, rfl⟩ := hi <;> rfl
  have hhalt : ∀ w, i ≠ .unsupported w := by
    rintro w rfl
    simp at hi
  have hclear : i ≠ .clearScreen := by
    rintro rfl
    simp at hi
  have hdisplay : ∀ x y n, i ≠ .display x y n := by
    rintro x y n rfl
    simp at hi
  have hindex : ∀ nnn, i ≠ .setIndex nnn := by
    rintro nnn rfl
    simp at hi
  obtain ⟨hword, haddr⟩ := heffect.haltRecord_eq hhalt
  refine ⟨hregs ▸ heffect.regsKept, heffect.index_eq hindex, gridKept_of_fb_eq (heffect.fb_eq hclear hdisplay),
    memoryKept_of_mem_eq heffect.mem_eq, heffect.events_eq hclear hdisplay, hword, haddr, fun hreturn hcall => ?_,
    fun hreturn hne => ?_, fun hcall hne => ?_⟩
  · exact ⟨heffect.stack_eq hreturn hcall,
      heffect.statusKept hhalt (fun heq => absurd heq hreturn) fun nnn heq => absurd heq (hcall nnn)⟩
  · exact heffect.statusKept hhalt (fun _ => hne) fun nnn heq => by simp [hreturn] at heq
  · obtain ⟨nnn, rfl⟩ := hcall
    exact heffect.statusKept hhalt (by simp) fun _ _ hfull => hne (Option.some.inj hfull).symm

open Sys2Proof Sys2Proof.Machine in
/-- Settles O44: the halt writes `run`, `run_state` and the halt record. -/
theorem unsupportedFrame : Obligations.UnsupportedFrame := by
  intro w s t hexec
  cases exec_eq_next_iff.1 hexec with
  | unsupported => exact ⟨fun _ _ => rfl, rfl, rfl, rfl, rfl, fun _ _ => rfl, fun _ => rfl, rfl⟩
  | skip htest => cases htest
end

section
/-! PROOFS. The display instructions as a whole: their frame, and what a second draw does (43_display.md §1, §2;
90_conflicts.md C10). -/

namespace Sys2Proof.Machine

section
variable {x y n : Nibble} {s t : State} (hdraw : exec (.display x y n) s = .next t)

include hdraw

/-- `Display` XORs the sprite bit over each cell (43_display.md R149). -/
theorem cell_of_exec_display (r c : Nat) :
    Framebuffer.cell t.fb r c = (Framebuffer.cell s.fb r c ^^ displayBit s x y n r c) := by
  obtain ⟨t', hdraw', hcell⟩ := displayXorsTheClippedSprite x y n s
  cases hdraw.symm.trans hdraw'
  exact hcell r c

/-- VF after `Display` is 1 exactly on a collision (43_display.md R148). -/
theorem readVF_of_exec_display :
    State.readReg t 0xF#4 = 1#8 ↔ ∃ r c, Framebuffer.cell s.fb r c = true ∧ displayBit s x y n r c = true := by
  obtain ⟨t', hdraw', hone, hzero, _⟩ := displaySetsVfToTheCollision x y n s
  cases hdraw.symm.trans hdraw'
  refine ⟨fun hvf => ?_, hone⟩
  by_contra hnone
  have hclear := hzero fun r c hcell => Bool.eq_false_iff.2 fun hbit => hnone ⟨r, c, hcell, hbit⟩
  rw [hvf] at hclear
  exact absurd hclear (by decide)

/-- The sprite bits of the same operands are those of the first draw when the anchor is. -/
theorem displayBit_after_exec_display
    (hcol : (State.readReg t x).toNat % 64 = (State.readReg s x).toNat % 64)
    (hrow : (State.readReg t y).toNat % 32 = (State.readReg s y).toNat % 32) (r c : Nat) :
    displayBit t x y n r c = displayBit s x y n r c := by
  have heffect := exec_eq_next_iff.1 hdraw
  rw [displayBit, displayBit, hcol, hrow, heffect.mem_eq, heffect.index_eq (by simp)]

/-- Only VF can move between two draws, so a condition on the anchor is one on the operand VF (43_display.md R145). -/
theorem readReg_after_exec_display {z : Nibble} {f : Byte → Nat}
    (hvf : z = 0xF#4 → f (State.readReg t z) = f (State.readReg s z)) :
    f (State.readReg t z) = f (State.readReg s z) := by
  by_cases hz : z = 0xF#4
  · exact hvf hz
  · rw [(exec_eq_next_iff.1 hdraw).regsKept z (by simpa [regsWritten] using hz)]

end

theorem inSprite_of_displayBit {s : State} {x y n : Nibble} {r c : Nat} (h : displayBit s x y n r c = true) :
    inSprite n ((State.readReg s y).toNat % 32) ((State.readReg s x).toNat % 64) s.index.toNat r c = true := by
  rw [displayBit, spriteBitAt, Bool.and_eq_true] at h
  exact h.1

theorem col_of_inSprite {n : Nibble} {r0 c0 base r c : Nat} (h : inSprite n r0 c0 base r c = true) :
    c0 ≤ c ∧ c < c0 + min 8 (64 - c0) := by
  simp only [inSprite, Bool.and_eq_true, decide_eq_true_eq] at h
  obtain ⟨⟨_, hleft⟩, hright⟩ := h
  exact ⟨hleft, hright⟩

end Sys2Proof.Machine

open Sys2Proof Sys2Proof.Machine in
/-- Settles O43: the two instructions are the writers of the grid and the stream, `Display` of VF, and a cell outside the
rectangle has no sprite bit over it. -/
theorem displayInstructionsFrame : Obligations.DisplayInstructionsFrame := by
  intro i s t hi hexec
  have heffect := exec_eq_next_iff.1 hexec
  have hkeeps : KeepsPc i := by obtain rfl | ⟨x, y, n, rfl⟩ := hi <;> trivial
  have hindex : ∀ nnn, i ≠ .setIndex nnn := by
    rintro nnn rfl
    simp at hi
  have hhalt : ∀ w, i ≠ .unsupported w := by
    rintro w rfl
    simp at hi
  have hreturn : i ≠ .leaveSubr := by
    rintro rfl
    exact hkeeps
  have hcall : ∀ nnn, i ≠ .enterSubr nnn := by
    rintro nnn rfl
    exact hkeeps
  refine ⟨heffect.regsKept, heffect.index_eq hindex, heffect.pc_eq hkeeps, heffect.stack_eq hreturn hcall,
    heffect.statusKept hhalt (fun heq => absurd heq hreturn) (fun nnn heq => absurd heq (hcall nnn)),
    memoryKept_of_mem_eq heffect.mem_eq, ?_⟩
  rintro x y n rfl r c hout
  have hbit : displayBit s x y n r c = false :=
    Bool.eq_false_iff.2 fun hbit => Bool.eq_false_iff.1 hout (inSprite_of_displayBit hbit)
  rw [cell_of_exec_display hexec, hbit, Bool.xor_false]

open Sys2Proof Sys2Proof.Machine in
/-- Settles O40: a changed cell has a sprite bit over it; the second draw XORs the same bits, and finds on what the first
found off. -/
theorem drawingTwiceRestoresTheGrid : Obligations.DrawingTwiceRestoresTheGrid := by
  refine ⟨fun x y s t hcol hdraw r c hchanged => ?_, fun x y n s t u hfirst hsecond hx hy => ?_,
    fun x y n s t r c hdraw hcell hbit => (readVF_of_exec_display hdraw).2 ⟨r, c, hcell, hbit⟩⟩
  · have hbit : displayBit s x y 8#4 r c = true := by
      by_contra hoff
      exact hchanged (by rw [cell_of_exec_display hdraw, Bool.eq_false_iff.2 hoff, Bool.xor_false])
    have hin := col_of_inSprite (inSprite_of_displayBit hbit)
    omega
  · have hsame := displayBit_after_exec_display hfirst (readReg_after_exec_display hfirst (f := fun v => v.toNat % 64) hx)
      (readReg_after_exec_display hfirst (f := fun v => v.toNat % 32) hy)
    refine ⟨fun r c => ?_, ?_⟩
    · rw [cell_of_exec_display hsecond, cell_of_exec_display hfirst, hsame, Bool.xor_assoc, Bool.xor_self,
        Bool.xor_false]
    · rw [readVF_of_exec_display hsecond]
      refine exists_congr fun r => exists_congr fun c => ?_
      rw [cell_of_exec_display hfirst, hsame, and_comm]
      refine and_congr_right fun hbit => ?_
      rw [hbit, Bool.xor_true, Bool.not_eq_true']
end

section
/-! PROOFS. The host interface (70_reset_and_hazards.md §1, §2): the reset values, the load port, and which host actions
leave a held, a failed and an ended block alone. -/

namespace Sys2Proof.Machine

/-! ### Reset and load -/

theorem readReg_reset (x : Nibble) : State.readReg State.reset x = 0x00#8 := by
  rw [State.readReg, State.reset, State.resetAt, Vector.getElem_replicate]

/-- The booted memory is the image from 0x200 on and the reset fill around it (70_reset_and_hazards.md R193). -/
theorem byte_bootedWith_eq (c : Config) {img : List Byte} (h : img.length ≤ 3584) (a : Nat) :
    Memory.byte (bootedWith c img).mem a =
      if 0x200 ≤ a ∧ a < 0x200 + img.length then img.getD (a - 0x200) 0#8
      else Memory.byte (State.resetWith c).mem a := by
  have hfit : 0x200 + img.length ≤ memSize := by simp only [memSize]; omega
  have hbyte : Memory.byte (bootedWith c img).mem a =
      if 0x200 ≤ a then img.getD (a - 0x200) (Memory.byte (resetMem c) a) else Memory.byte (resetMem c) a :=
    Memory.byte_putAll (resetMem_wf c) hfit a
  rw [hbyte]
  by_cases hlo : 0x200 ≤ a
  · by_cases hhi : a < 0x200 + img.length
    · have hidx : a - 0x200 < img.length := by omega
      rw [if_pos hlo, if_pos ⟨hlo, hhi⟩, List.getD_eq_getElem _ _ hidx, List.getD_eq_getElem _ _ hidx]
    · rw [if_pos hlo, if_neg (fun hin => hhi hin.2), List.getD_eq_default _ _ (by omega)]
      rfl
  · rw [if_neg hlo, if_neg (fun hin => hlo hin.1)]
    rfl

theorem bootedWith_mem_wf (c : Config) {img : List Byte} (h : img.length ≤ 3584) :
    Memory.wf (bootedWith c img).mem = true :=
  Memory.putAll_wf (resetMem_wf c) (by simp only [memSize]; omega)

theorem loadImage_refused {img : List Byte} (h : 3584 < img.length) {pw : Nat} (s : State pw) :
    loadImage img s = .refused (.imageTooLarge img.length) :=
  if_neg (Nat.not_le.2 h)

/-! ### Sequences of host actions -/

section
variable {c : Config} {b : Block c.pcWidth}

theorem acts_of_act_self {as : List HostAction} (h : ∀ a ∈ as, Block.act c b a = b) : Block.acts c b as = b := by
  induction as with
  | nil => rfl
  | cons a as ih =>
    rw [List.forall_mem_cons] at h
    rw [Block.acts, h.1, ih h.2]

/-- What every action of the sequence keeps, the sequence keeps. -/
theorem acts_keeps {P : Block c.pcWidth → Prop} {as : List HostAction}
    (hkeeps : ∀ a ∈ as, ∀ b, P b → P (Block.act c b a)) (hb : P b) : P (Block.acts c b as) := by
  induction as generalizing b with
  | nil => exact hb
  | cons a as ih =>
    rw [List.forall_mem_cons] at hkeeps
    exact ih hkeeps.2 (hkeeps.1 b hb)

/-- A failed boot is left by a reset only (log 17). -/
theorem act_of_failed (hphase : b.phase = .failed) {a : HostAction} (ha : a ≠ .assertReset) : Block.act c b a = b := by
  cases a with
  | assertReset => exact absurd rfl ha
  | _ => simp only [Block.act, hphase]

/-- A released block whose run has ended is left by a reset only (40_execution_engine.md R97). -/
theorem act_of_ended (hphase : b.phase = .released) (hrun : b.core.run ≠ .running) {a : HostAction}
    (ha : a ≠ .assertReset) : Block.act c b a = b := by
  cases a with
  | assertReset => exact absurd rfl ha
  | activate =>
    obtain ⟨phase, core⟩ := b
    cases hphase
    have hstep : stepWith c core = .next core := engineStep_ended hrun
    simp only [Block.act, Block.activate, hstep]
  | _ => simp only [Block.act, hphase]

/-- `b` is not released, and differs from the state `s` in memory only. -/
def UnreleasedFrom (s : State c.pcWidth) (b : Block c.pcWidth) : Prop :=
  b.phase ≠ .released ∧ b.core = { s with mem := b.core.mem }

theorem load_unreleasedFrom {s : State c.pcWidth} (hb : UnreleasedFrom s b) (img : List Byte) :
    UnreleasedFrom s (Block.load b img) := by
  obtain ⟨hphase, hcore⟩ := hb
  by_cases hfit : img.length ≤ 3584
  · rw [Block.load, loadImage_ok hfit]
    exact ⟨hphase, congrArg (fun u => { u with mem := Memory.putAll b.core.mem 0x200 img }) hcore⟩
  · rw [Block.load, loadImage_refused (Nat.not_le.1 hfit)]
    exact ⟨BootPhase.noConfusion, hcore⟩

theorem act_unreleasedFrom {s : State c.pcWidth} (hb : UnreleasedFrom s b) {a : HostAction} (hrelease : a ≠ .releaseReset)
    (hreset : a ≠ .assertReset) : UnreleasedFrom s (Block.act c b a) := by
  cases hphase : b.phase with
  | released => exact absurd hphase hb.1
  | failed => rwa [act_of_failed hphase hreset]
  | held =>
    cases a with
    | assertReset => exact absurd rfl hreset
    | releaseReset => exact absurd rfl hrelease
    | load img =>
      simp only [Block.act, hphase]
      exact load_unreleasedFrom hb img
    | initFailure =>
      simp only [Block.act, hphase]
      exact ⟨BootPhase.noConfusion, hb.2⟩
    | activate =>
      simp only [Block.act, hphase]
      exact hb

end

end Sys2Proof.Machine

open Sys2Proof Sys2Proof.Machine in
/-- Settles O2: the reset state's fields; V and the grid are one value repeated, and the memory names no address. -/
theorem resetLeavesTheDecidedValues : Obligations.ResetLeavesTheDecidedValues :=
  ⟨readReg_reset, rfl, fun _ => rfl, rfl, rfl, rfl, rfl, rfl, rfl, Framebuffer.cell_blank, rfl⟩

open Sys2Proof Sys2Proof.Machine in
/-- Settles O4: the booted state byte by byte, and an oversized image's block, which is failed from its first action on. -/
theorem loadPortPlacesTheImageOrRefusesIt : Obligations.LoadPortPlacesTheImageOrRefusesIt := by
  refine ⟨fun c img hfit => ?_, fun c img hlarge => ⟨loadImage_refused hlarge _, fun as hreset => ?_⟩,
    fun c img b hphase => by simp only [Block.act, hphase]⟩
  · exact ⟨bootedWith c img, bootWith_eq_bootedWith c hfit, rfl, bootedWith_mem_wf c hfit, byte_bootedWith_eq c hfit⟩
  · have hload : Block.act c (Block.inReset c) (.load img) = ⟨.failed, State.resetWith c⟩ := by
      simp only [Block.act, Block.inReset, Block.load, loadImage_refused hlarge]
    rw [Block.acts, hload]
    exact acts_of_act_self fun a ha => act_of_failed rfl fun heq => hreset (heq ▸ ha)

open Sys2Proof Sys2Proof.Machine in
/-- Settles O5: no single action but a release or a reset moves an unreleased block beyond its memory. -/
theorem heldBlockTakesNoStep : Obligations.HeldBlockTakesNoStep := fun _ b _ hphase hrelease hreset =>
  acts_keeps (P := UnreleasedFrom b.core)
    (fun _ ha _ hb => act_unreleasedFrom hb (fun heq => hrelease (heq ▸ ha)) fun heq => hreset (heq ▸ ha)) ⟨hphase, rfl⟩

open Sys2Proof Sys2Proof.Machine in
/-- Settles O52: no single action but a reset moves the block. -/
theorem endedBlockIgnoresTheHostUntilReset : Obligations.EndedBlockIgnoresTheHostUntilReset :=
  fun _ _ _ hphase hrun hreset => acts_of_act_self fun _ ha => act_of_ended hphase hrun fun heq => hreset (heq ▸ ha)
end

section
/-! PROOFS. The engine's PC after each instruction (10_state.md §2), the ends of a run (40_execution_engine.md §2), the
placed fetch word (log 14), and a return after its call (10_state.md §5). -/

namespace Sys2Proof.Machine

/-! ### The PC after a step -/

section
variable {s : State} (hhi : s.pc.toNat ≤ 0xFFE) (p : Prop) [Decidable p]

include hhi

/-- The PC of a fetched skip that is taken when `p` holds (41_control_flow.md R114). -/
theorem skipWhen_pc_toNat :
    (if p then State.advance (State.advance s) else State.advance s).pc.toNat =
      if p then s.pc.toNat + 4 else s.pc.toNat + 2 := by
  have htwo : (State.advance s).pc.toNat = s.pc.toNat + 2 := advance_pc_toNat (by decide) hhi
  have hfour : (State.advance (State.advance s)).pc.toNat = s.pc.toNat + 4 := by
    rw [advance_advance, BitVec.toNat_ofNat]
    omega
  split
  · exact hfour
  · exact htwo

/-- The PC of a fetched skip that is taken when `p` fails. -/
theorem skipUnless_pc_toNat :
    (if p then State.advance s else State.advance (State.advance s)).pc.toNat =
      if p then s.pc.toNat + 2 else s.pc.toNat + 4 := by
  rw [← ite_not, skipWhen_pc_toNat hhi, ite_not]

end

/-! ### The placed fetch word -/

theorem tableWord_toNat (w : Word) : tableWord 16 w.toNat = w := by
  rw [tableWord, Nat.mod_eq_of_lt w.isLt, BitVec.ofNat_toNat, BitVec.setWidth_eq]

/-- A state that fetches is left as it is (log 14). -/
theorem readyToFetch_of_fetchesWord {s : State} {w : Word} (h : FetchesWord s w) : readyToFetch s = s := by
  obtain ⟨hrun, hlo, hhi, heven, _⟩ := h
  have hbound : fetchFails s.pc.toNat = false :=
    Bool.eq_false_iff.2 fun hf => by
      have := (fetchFails_iff _).1 hf
      omega
  have hfetchable : pcFetchable s.pc = true := by
    rw [pcFetchable, hbound, misaligned_hardware, decide_eq_false (by omega)]
    rfl
  rw [readyToFetch, if_pos hfetchable, ← hrun]

/-- The two bytes of the word at `a` and `a + 1`, and nothing else. -/
theorem byte_putAll_wordBytes {m : Memory} (hm : Memory.wf m = true) {a : Nat} (ha : a ≤ 0xFFE) (w : Word) (a' : Nat) :
    Memory.byte (Memory.putAll m a (wordBytes w)) a' =
      if a' = a then field w 8 8 else if a' = a + 1 then field w 0 8 else Memory.byte m a' := by
  rw [wordBytes, Memory.putAll, Memory.putAll, Memory.putAll]
  rw [Memory.byte_put (Memory.put_wf hm (by simp only [memSize]; omega) _), Memory.byte_put hm]
  by_cases h : a' = a
  · rw [if_neg (by omega), if_pos h, if_pos h]
  · rw [if_neg h, if_neg h]

theorem withFetchWord_eq (s : State) (w : Word) :
    State.withFetchWord s 16 w.toNat =
      { readyToFetch s with mem := Memory.putAll s.mem (readyToFetch s).pc.toNat (wordBytes w) } := by
  rw [State.withFetchWord, tableWord_toNat]
  rfl

theorem withFetchWord_fetchesWord {s : State} (hm : Memory.wf s.mem = true) (w : Word) :
    FetchesWord (State.withFetchWord s 16 w.toNat) w := by
  obtain ⟨hlo, hhi, heven⟩ := readyToFetch_pc s
  rw [withFetchWord_eq]
  refine ⟨rfl, hlo, hhi, heven, ?_⟩
  simp only [byte_putAll_wordBytes hm hhi, if_true, if_neg (Nat.succ_ne_self _)]
  rw [← bigEndian_toNat, bigEndian_field]

end Sys2Proof.Machine

open Sys2Proof Sys2Proof.Machine in
/-- Settles O18: an end that is not normal is an abort, and a normal end is the only state of its runs. -/
theorem endsAreNormalOrFaultedNeverBoth : Obligations.EndsAreNormalOrFaultedNeverBoth := by
  refine fun s => ⟨?_, ?_, fun hnormal k t hrun => ?_⟩
  · cases hs : s.run <;> simp [RunEnded, NormalEnd, Faulted, hs]
  · rintro ⟨hnormal | hnormal, r, habort⟩ <;> cases hnormal.symm.trans habort
  · have hended : s.run ≠ .running := by obtain h | h := hnormal <;> simp [h]
    cases hrun.symm.trans (coreRun_of_step_self (M := Sys2Proof.core) (engineStep_ended hended) k)
    rintro ⟨r, habort⟩
    obtain h | h := hnormal <;> cases h.symm.trans habort

open Sys2Proof Sys2Proof.Machine in
/-- Settles O22: the fetched instruction's own equation, on the state whose PC is past it. -/
theorem pcAfterAStepFollowsTheTable : Obligations.PcAfterAStepFollowsTheTable := by
  intro s t w hfetch hstep
  have heffect := effect_of_fetchesWord hfetch hstep
  have hexec := (step_advance_of_fetchesWord hfetch).symm.trans hstep
  have ⟨_, _, hhi, _, _⟩ := hfetch
  have hpc : (State.advance s).pc.toNat = s.pc.toNat + 2 := advance_pc_toNat (by decide) hhi
  cases hdec : decode w with
  | jump nnn =>
    rw [hdec] at heffect
    cases heffect with
    | jump => exact target_toNat (by decide) nnn
    | skip htest => cases htest
  | enterSubr nnn =>
    rw [hdec] at heffect
    cases heffect with
    | callFull hfull => exact hpc.trans (if_pos (Option.some.inj hfull).symm).symm
    | callPush hroom =>
      exact (target_toNat (by decide) nnn).trans (if_neg fun hfull => hroom (congrArg some hfull.symm)).symm
    | skip htest => cases htest
  | leaveSubr =>
    rw [hdec] at heffect
    cases heffect with
    | returnEmpty hempty =>
      rw [State.advance_stack] at hempty
      simp [hempty, advance_eq]
    | returnPop htop =>
      rw [State.advance_stack] at htop
      simp [htop]
    | skip htest => cases htest
  | skipIfEq x nn =>
    rw [hdec, exec_skipIfEq] at hexec
    cases hexec
    exact skipWhen_pc_toNat hhi _
  | skipIfNEq x nn =>
    rw [hdec, exec_skipIfNEq] at hexec
    cases hexec
    exact skipUnless_pc_toNat hhi _
  | skipIfEqXY x y =>
    rw [hdec, exec_skipIfEqXY] at hexec
    cases hexec
    exact skipWhen_pc_toNat hhi _
  | skipIfNEqXY x y =>
    rw [hdec, exec_skipIfNEqXY] at hexec
    cases hexec
    exact skipUnless_pc_toNat hhi _
  | _ => exact (congrArg BitVec.toNat (heffect.pc_eq (by rw [hdec]; trivial))).trans hpc

open Sys2Proof Sys2Proof.Machine in
/-- Settles O24: the word lies where the readied PC is, and a state that fetches is ready. -/
theorem placedFetchWordIsFetchedNext : Obligations.PlacedFetchWordIsFetchedNext := by
  intro s w hm
  have hplaced := withFetchWord_fetchesWord hm w
  refine ⟨hplaced, step_advance_of_fetchesWord hplaced, fun w' hfetch => ?_⟩
  have hready := readyToFetch_of_fetchesWord hfetch
  have ⟨_, _, hhi, _, _⟩ := hfetch
  rw [withFetchWord_eq, hready]
  exact ⟨rfl, fun a ha ha' => by simp only [byte_putAll_wordBytes hm hhi, if_neg ha, if_neg ha']⟩

open Sys2Proof Sys2Proof.Machine in
/-- Settles O28: the call has put the caller's PC on top, and the return takes it from there. -/
theorem returnUndoesTheCall : Obligations.ReturnUndoesTheCall := by
  intro s t m nnn hroom hcall hstack
  cases hcall.symm.trans (exec_enterSubr_push nnn hroom)
  have htop : m.stack = s.stack ++ [s.pc] := hstack
  rw [exec_leaveSubr_pop htop, State.setPc, State.dropTop, htop, List.dropLast_concat]
end

section
/-! PROOFS. What a step does not read: the past event stream (43_display.md R160), the status outputs (10_state.md §6), and,
unless it runs `Display`, I and the grid (10_state.md §3, §7). -/

namespace Sys2Proof.Machine

section
variable {depth : Option Nat} {pw : Nat} {s t : State pw} {i : Instr} {c : Config}

/-! ### The past event stream -/

/-- `s` with more events emitted before those of its stream. -/
def State.precededBy (before : List SinkEvent) (s : State pw) : State pw := { s with events := before ++ s.events }

theorem emit_precededBy (before es : List SinkEvent) (s : State pw) :
    State.emit (State.precededBy before s) es = State.precededBy before (State.emit s es) := by
  simp [State.emit, State.precededBy]

theorem drawSprite_precededBy (before : List SinkEvent) (s : State pw) (c0 r0 : Nat) (rows : List Byte) :
    drawSprite (State.precededBy before s) c0 r0 rows = State.precededBy before (drawSprite s c0 r0 rows) := by
  simp only [drawSprite, ← emit_precededBy]
  rfl

theorem Effect.precededBy (h : Effect depth s i t) (before : List SinkEvent) :
    Effect depth (State.precededBy before s) i (State.precededBy before t) := by
  cases h with
  | clearScreen =>
    rw [← emit_precededBy]
    exact .clearScreen
  | display hrows =>
    rw [← drawSprite_precededBy]
    exact .display hrows
  | @skip _ b htest => cases b <;> exact .skip (s := State.precededBy before s) htest
  | returnEmpty hempty => exact .returnEmpty hempty
  | returnPop htop => exact .returnPop htop
  | jump => exact .jump
  | callFull hfull => exact .callFull hfull
  | callPush hroom => exact .callPush hroom
  | setReg => exact .setReg
  | addToReg => exact .addToReg
  | setIndex => exact .setIndex
  | unsupported => exact .unsupported

theorem StepEffect.precededBy (h : StepEffect c s t) (before : List SinkEvent) :
    StepEffect c (State.precededBy before s) (State.precededBy before t) := by
  cases h with
  | ended hrun => exact .ended hrun
  | outOfBounds hrun hb => exact .outOfBounds hrun hb
  | misaligned hrun hlo hhi hm => exact .misaligned hrun hlo hhi hm
  | fetched hrun hlo hhi hm heffect => exact .fetched hrun hlo hhi hm (heffect.precededBy before)

/-! ### The status outputs -/

/-- `s` with other values on the four status outputs. -/
def State.withStatus (s : State pw) (rs : BitVec 2) (hw ha : Word) (ar : BitVec 3) : State pw :=
  { s with runState := rs, haltWord := hw, haltAddr := ha, abortReason := ar }

/-- Equal but for the status outputs. -/
def EqButStatus (t t' : State pw) : Prop := t = State.withStatus t' t.runState t.haltWord t.haltAddr t.abortReason

theorem Effect.withStatus (h : Effect depth s i t) (rs : BitVec 2) (hw ha : Word) (ar : BitVec 3) :
    ∃ t', Effect depth (State.withStatus s rs hw ha ar) i t' ∧ EqButStatus t t' := by
  cases h with
  | @skip _ b htest => cases b <;> exact ⟨_, .skip htest, rfl⟩
  | clearScreen => exact ⟨_, .clearScreen, rfl⟩
  | returnEmpty hempty => exact ⟨_, .returnEmpty hempty, rfl⟩
  | returnPop htop => exact ⟨_, .returnPop htop, rfl⟩
  | jump => exact ⟨_, .jump, rfl⟩
  | callFull hfull => exact ⟨_, .callFull hfull, rfl⟩
  | callPush hroom => exact ⟨_, .callPush hroom, rfl⟩
  | setReg => exact ⟨_, .setReg, rfl⟩
  | addToReg => exact ⟨_, .addToReg, rfl⟩
  | setIndex => exact ⟨_, .setIndex, rfl⟩
  | display hrows => exact ⟨_, .display hrows, rfl⟩
  | unsupported => exact ⟨_, .unsupported, rfl⟩

theorem StepEffect.withStatus (h : StepEffect c s t) (rs : BitVec 2) (hw ha : Word) (ar : BitVec 3) :
    ∃ t', StepEffect c (State.withStatus s rs hw ha ar) t' ∧ EqButStatus t t' := by
  cases h with
  | ended hrun => exact ⟨_, .ended hrun, rfl⟩
  | outOfBounds hrun hb => exact ⟨_, .outOfBounds hrun hb, rfl⟩
  | misaligned hrun hlo hhi hm => exact ⟨_, .misaligned hrun hlo hhi hm, rfl⟩
  | fetched hrun hlo hhi hm heffect =>
    obtain ⟨t', heffect', heq⟩ := heffect.withStatus rs hw ha ar
    exact ⟨t', .fetched hrun hlo hhi hm heffect', heq⟩

/-! ### I and the grid -/

/-- `s` with another I and another grid. -/
def State.withCanvas (s : State pw) (j : Addr) (g : Framebuffer) : State pw := { s with index := j, fb := g }

/-- Equal but for I and the grid. -/
def EqButCanvas (t t' : State pw) : Prop := t = State.withCanvas t' t.index t.fb

theorem Effect.withCanvas (h : Effect depth s i t) (hdisplay : ∀ x y n, i ≠ .display x y n) (j : Addr) (g : Framebuffer) :
    ∃ t', Effect depth (State.withCanvas s j g) i t' ∧ EqButCanvas t t' := by
  cases h with
  | display => exact absurd rfl (hdisplay _ _ _)
  | @skip _ b htest => cases b <;> exact ⟨_, .skip htest, rfl⟩
  | clearScreen => exact ⟨_, .clearScreen, rfl⟩
  | returnEmpty hempty => exact ⟨_, .returnEmpty hempty, rfl⟩
  | returnPop htop => exact ⟨_, .returnPop htop, rfl⟩
  | jump => exact ⟨_, .jump, rfl⟩
  | callFull hfull => exact ⟨_, .callFull hfull, rfl⟩
  | callPush hroom => exact ⟨_, .callPush hroom, rfl⟩
  | setReg => exact ⟨_, .setReg, rfl⟩
  | addToReg => exact ⟨_, .addToReg, rfl⟩
  | setIndex => exact ⟨_, .setIndex, rfl⟩
  | unsupported => exact ⟨_, .unsupported, rfl⟩

end

theorem StepEffect.withCanvas {s t : State} (h : StepEffect hardwareBuild s t)
    (hdisplay : ∀ w, FetchesWord s w → ∀ x y n, decode w ≠ .display x y n) (j : Addr) (g : Framebuffer) :
    ∃ t', StepEffect hardwareBuild (State.withCanvas s j g) t' ∧ EqButCanvas t t' := by
  cases h with
  | ended hrun => exact ⟨_, .ended hrun, rfl⟩
  | outOfBounds hrun hb => exact ⟨_, .outOfBounds hrun hb, rfl⟩
  | misaligned hrun hlo hhi hm => exact ⟨_, .misaligned hrun hlo hhi hm, rfl⟩
  | fetched hrun hlo hhi hm heffect =>
    obtain ⟨t', heffect', heq⟩ := heffect.withCanvas (hdisplay _ (fetchesWord_of_aligned hrun hlo hhi hm)) j g
    exact ⟨t', .fetched hrun hlo hhi hm heffect', heq⟩

end Sys2Proof.Machine

open Sys2Proof Sys2Proof.Machine in
/-- Settles O48: every effect only appends to the stream. -/
theorem sinkStreamIsNeverReadBack : Obligations.SinkStreamIsNeverReadBack := fun _ _ before hstep =>
  step_eq_next_iff.2 ((step_eq_next_iff.1 hstep).precededBy before)

open Sys2Proof Sys2Proof.Machine in
/-- Settles O49: the same way of the step is open whatever the outputs hold, and leads to the same rest of the state. -/
theorem statusOutputsAreNeverRead : Obligations.StatusOutputsAreNeverRead := fun _ _ rs hw ha ar hstep =>
  ((step_eq_next_iff.1 hstep).withStatus rs hw ha ar).imp fun _ h => ⟨step_eq_next_iff.2 h.1, h.2⟩

open Sys2Proof Sys2Proof.Machine in
/-- Settles O50: every way of the step but `Display`'s is open whatever I and the grid hold. -/
theorem indexAndGridAreReadByDisplayOnly : Obligations.IndexAndGridAreReadByDisplayOnly :=
  fun _ _ j g hstep hdisplay =>
    ((step_eq_next_iff.1 hstep).withCanvas hdisplay j g).imp fun _ h => ⟨step_eq_next_iff.2 h.1, h.2⟩
end

section
/-! PROOFS. `PC_WIDTH` from 13 bits on (92_eei_decisions.md D2, 10_state.md §2): the PC and the return addresses stay in
range, and there no operation wraps, so a run at another width is the same run. -/

namespace Sys2Proof.Machine

/-! ### The range -/

theorem pcInRange_setPc {pw : Nat} {s : State pw} {a : BitVec pw} (hstack : ∀ e ∈ s.stack, e.toNat ≤ 0x1000)
    (ha : a.toNat ≤ 0x1002) : PcInRange (State.setPc s a) := ⟨ha, hstack⟩

/-- An instruction stays in range when it starts, as in a step, with a PC that is a possible return address. -/
theorem Effect.pcInRange {depth : Option Nat} {pw : Nat} {s t : State pw} {i : Instr} (h : Effect depth s i t)
    (hpc : s.pc.toNat ≤ 0x1000) (hstack : ∀ e ∈ s.stack, e.toNat ≤ 0x1000) : PcInRange t := by
  have hsame : s.pc.toNat ≤ 0x1002 := by omega
  cases h with
  | @jump nnn => exact pcInRange_setPc hstack ((target_le nnn).trans (by decide))
  | @callPush nnn =>
    refine pcInRange_setPc (fun e he => ?_) ((target_le nnn).trans (by decide))
    obtain he | he := List.mem_append.1 he
    · exact hstack e he
    · rwa [List.mem_singleton.1 he]
  | @returnPop st ret htop =>
    have hret : ret.toNat ≤ 0x1000 := hstack ret (by simp [htop])
    exact pcInRange_setPc (fun e he => hstack e (List.mem_of_mem_dropLast he)) (by omega)
  | @skip _ b =>
    have hadvance := advance_pc_le s
    cases b with
    | false => exact ⟨hsame, hstack⟩
    | true => exact pcInRange_setPc hstack (a := (State.advance s).pc) (by omega)
  | _ => exact ⟨hsame, hstack⟩

/-! ### The operations at another width -/

section
variable {pw w : Nat}

theorem two_pow_13_le (hw : 13 ≤ w) : 0x2000 ≤ 2 ^ w := Nat.pow_le_pow_right (n := 2) (by decide) hw

theorem toNat_setWidth_of_small (hw : 13 ≤ w) {a : BitVec pw} (ha : a.toNat ≤ 0x1002) : (a.setWidth w).toNat = a.toNat := by
  have hpow := two_pow_13_le hw
  rw [BitVec.toNat_setWidth, Nat.mod_eq_of_lt (by omega)]

theorem toNat_add_two (hw : 13 ≤ w) {a : BitVec w} (ha : a.toNat ≤ 0x1000) : (a + 2#w).toNat = a.toNat + 2 := by
  have hpow := two_pow_13_le hw
  rw [BitVec.toNat_add, BitVec.toNat_ofNat, Nat.add_mod_mod, Nat.mod_eq_of_lt (by omega)]

theorem toNat_sub_two (hw : 13 ≤ w) {a : BitVec w} (ha : 2 ≤ a.toNat) : (a - 2#w).toNat = a.toNat - 2 := by
  have hpow := two_pow_13_le hw
  have htwo : (2#w).toNat = 2 := by rw [BitVec.toNat_ofNat, Nat.mod_eq_of_lt (by omega)]
  rw [BitVec.toNat_sub_of_le (by rw [BitVec.le_def, htwo]; exact ha), htwo]

theorem setWidth_target (hpw : 13 ≤ pw) (hw : 13 ≤ w) (nnn : Addr) : (target nnn : BitVec pw).setWidth w = target nnn := by
  apply BitVec.eq_of_toNat_eq
  rw [toNat_setWidth_of_small hw ((target_le nnn).trans (by decide)), target_toNat (by omega), target_toNat (by omega)]

variable {s : State pw} (hpw : 13 ≤ pw) (hw : 13 ≤ w) (hpc : s.pc.toNat ≤ 0x1000)

theorem atPcWidth_setPc (a : BitVec pw) :
    State.atPcWidth w (State.setPc s a) = State.setPc (State.atPcWidth w s) (a.setWidth w) := rfl

include hpw hw hpc

theorem atPcWidth_advance : State.atPcWidth w (State.advance s) = State.advance (State.atPcWidth w s) := by
  have hadd : (s.pc + 2#pw).setWidth w = s.pc.setWidth w + 2#w := by
    have hsmall := toNat_setWidth_of_small hw (a := s.pc) (by omega)
    apply BitVec.eq_of_toNat_eq
    have hadvanced := toNat_add_two hpw hpc
    rw [toNat_setWidth_of_small hw (by omega), hadvanced, toNat_add_two hw (hsmall.trans_le hpc), hsmall]
  rw [State.advance, atPcWidth_setPc, hadd]
  rfl

theorem atPcWidth_haltUnsupported (hlo : 2 ≤ s.pc.toNat) (word : Word) :
    State.atPcWidth w (State.haltUnsupported s word) = State.haltUnsupported (State.atPcWidth w s) word := by
  have hsub : (s.pc - 2#pw).setWidth 16 = (s.pc.setWidth w - 2#w).setWidth 16 := by
    have hsmall := toNat_setWidth_of_small hw (a := s.pc) (by omega)
    apply BitVec.eq_of_toNat_eq
    rw [BitVec.toNat_setWidth, BitVec.toNat_setWidth, toNat_sub_two hpw hlo, toNat_sub_two hw (hlo.trans_eq hsmall.symm),
      hsmall]
  rw [State.haltUnsupported, State.haltUnsupported, State.atPcWidth_pc, ← hsub]
  rfl

/-- An instruction has the same effect at another width. -/
theorem Effect.atPcWidth {depth : Option Nat} {t : State pw} {i : Instr} (h : Effect depth s i t) (hlo : 2 ≤ s.pc.toNat) :
    Effect depth (State.atPcWidth w s) i (State.atPcWidth w t) := by
  have hlength : (State.atPcWidth w s).stack.length = s.stack.length := List.length_map ..
  cases h with
  | clearScreen => exact .clearScreen
  | returnEmpty hempty => exact .returnEmpty (by rw [State.atPcWidth_stack, hempty, List.map_nil])
  | returnPop htop =>
    have hdrop : State.atPcWidth w (State.dropTop s) = State.dropTop (State.atPcWidth w s) := by
      simp [State.atPcWidth, State.dropTop, List.map_dropLast]
    rw [atPcWidth_setPc, hdrop]
    exact .returnPop (by rw [State.atPcWidth_stack, htop, List.map_append, List.map_singleton])
  | jump =>
    rw [atPcWidth_setPc, setWidth_target hpw hw]
    exact .jump
  | callFull hfull => exact .callFull (by rw [hlength, hfull])
  | callPush hroom =>
    have hpush : State.atPcWidth w (State.push s s.pc) = State.push (State.atPcWidth w s) (State.atPcWidth w s).pc := by
      simp [State.atPcWidth, State.push]
    rw [atPcWidth_setPc, setWidth_target hpw hw, hpush]
    exact .callPush (by rwa [hlength])
  | @skip _ b htest =>
    rw [apply_ite (State.atPcWidth w), atPcWidth_advance hpw hw hpc]
    exact .skip (s := State.atPcWidth w s) htest
  | setReg => exact .setReg
  | addToReg => exact .addToReg
  | setIndex => exact .setIndex
  | display hrows => exact .display (s := State.atPcWidth w s) hrows
  | unsupported =>
    rw [atPcWidth_haltUnsupported hpw hw hpc hlo]
    exact .unsupported

end

/-! ### Steps and runs at another width -/

theorem misaligned_congr (c : Config) {pw w : Nat} {a : BitVec pw} {b : BitVec w} (h : a.toNat = b.toNat) :
    misaligned c a = misaligned c b := by
  rw [Bool.eq_iff_iff, misaligned_iff, misaligned_iff, h]

section
variable {c : Config} {w pw : Nat} (hpw : 13 ≤ pw) {s t : State pw} (hs : PcInRange s) (hw : 13 ≤ w)

include hpw hs

theorem StepEffect.pcInRange (h : StepEffect c s t) : PcInRange t := by
  cases h with
  | fetched hrun hlo hhi hm heffect =>
    exact heffect.pcInRange (by rw [advance_pc_toNat hpw hhi]; omega) hs.2
  | _ => exact hs

include hw

/-- A step does the same at another width, the other parameters alike. -/
theorem StepEffect.atPcWidth (h : StepEffect c s t) :
    StepEffect { c with pcWidth := w } (State.atPcWidth w s) (State.atPcWidth w t) := by
  have hpc : (State.atPcWidth w s).pc.toNat = s.pc.toNat := toNat_setWidth_of_small hw hs.1
  have halign := misaligned_congr c hpc
  cases h with
  | ended hrun => exact .ended hrun
  | outOfBounds hrun hb => exact .outOfBounds hrun (by rwa [hpc])
  | misaligned hrun hlo hhi hm => exact .misaligned hrun (by rwa [hpc]) (by rwa [hpc]) (halign.trans hm)
  | fetched hrun hlo hhi hm heffect =>
    have hadvanced : (State.advance s).pc.toNat = s.pc.toNat + 2 := advance_pc_toNat hpw hhi
    have heffect' := heffect.atPcWidth hpw hw (by omega) (by omega)
    rw [atPcWidth_advance hpw hw (by omega)] at heffect'
    refine .fetched hrun (by rwa [hpc]) (by rwa [hpc]) (halign.trans hm) ?_
    rw [hpc]
    exact heffect'

end

theorem runWith_atPcWidth {c : Config} {w : Nat} (hpw : 13 ≤ c.pcWidth) (hw : 13 ≤ w) {k : Nat} {s t : State c.pcWidth}
    (hs : PcInRange s) (hrun : runWith c k s = .next t) :
    runWith { c with pcWidth := w } k (State.atPcWidth w s) = .next (State.atPcWidth w t) := by
  induction k generalizing s with
  | zero =>
    cases hrun
    rfl
  | succ k ih =>
    obtain ⟨u, hu⟩ := exists_stepEffect c s
    have hrest : runWith c k u = .next t := (runWith_succ_of_stepWith hu k).symm.trans hrun
    exact (runWith_succ_of_stepWith (c := { c with pcWidth := w }) (hu.atPcWidth hpw hs hw) k).trans
      (ih (hu.pcInRange hpw hs) hrest)

theorem resetWith_atPcWidth {c : Config} {w : Nat} (hpw : 13 ≤ c.pcWidth) (hw : 13 ≤ w) :
    State.resetWith { c with pcWidth := w } = State.atPcWidth w (State.resetWith c) := by
  have hpc : (State.resetWith { c with pcWidth := w }).pc = (State.resetWith c).pc.setWidth w := by
    have hreset : (State.resetWith c).pc.toNat = 0x200 := resetWith_pc_toNat (by omega)
    apply BitVec.eq_of_toNat_eq
    rw [toNat_setWidth_of_small hw (by omega), hreset]
    exact resetWith_pc_toNat (c := { c with pcWidth := w }) (by simp only; omega)
  rw [State.atPcWidth, ← hpc]
  rfl

theorem resetWith_pcInRange {c : Config} (hpw : 13 ≤ c.pcWidth) : PcInRange (State.resetWith c) :=
  ⟨(resetWith_pc_toNat (by omega)).trans_le (by decide), fun _ he => absurd he List.not_mem_nil⟩

end Sys2Proof.Machine

open Sys2Proof Sys2Proof.Machine in
/-- Settles O51: in range no PC operation wraps at 13 bits or more, and every step stays in range. -/
theorem pcWidthIsUnobservableFrom13Bits : Obligations.PcWidthIsUnobservableFrom13Bits := fun _ _ hpw hw =>
  ⟨⟨resetWith_pcInRange hpw, resetWith_atPcWidth hpw hw⟩, fun _ _ _ hs hrun =>
    ⟨runWith_keeps (fun _ _ hstep hs => hstep.pcInRange hpw hs) hrun hs, runWith_atPcWidth hpw hw hs hrun⟩⟩
end
